-- ==== Sys2Proof/Word.lean ====
section
/-! DEFINITION. The word types of AFIV (spec 00_scope.md R19, 30_encoding.md R82). -/

namespace Sys2Proof

/-- A byte: 8 bits, unsigned (R19). -/
abbrev Byte := BitVec 8

/-- A command word as the command port presents it: `op` in bits 11:8, `arg` in bits 7:0 (R82). -/
abbrev CmdWord := BitVec 12

/-- A checksum value of `ALG.W` bits (8, 16 or 32; R25, R140), held in 32 bits whose bits from `ALG.W` up
are zero. DESIGN CHOICE (log entry 4), safe: the invariant says those bits are zero. -/
abbrev AlgWord := BitVec 32

end Sys2Proof
end

