-- ==== Sys2Proof/Config.lean ====
section
/-! DEFINITION. The configuration record `Cfg` (spec 00_scope.md section 4, R6 to R16), the data of the
checksum algorithm (41_integrity.md R140, R142, R143) and of the catalog (42_catalog.md R170 to R173),
the opaque constants of an open algorithm, and the two reference configurations (R15, R154, R180). -/

namespace Sys2Proof

/-- `BO`, the one byte order of the wire (R10, R54). -/
inductive ByteOrder where
  | le
  | be
deriving DecidableEq, Repr

/-- `FIN`, the finishing rule of the additive family (R143): identity, ones' complement, two's complement. -/
inductive SumFin where
  | id
  | inv
  | neg
deriving DecidableEq, Repr

/-- `ALG` as plain data (R11, R140): the CRC family (R142), the additive family (R143), or an algorithm
that is neither, of which nothing is known but its width. What each computes is Machine/Integrity.lean. -/
inductive Alg where
  /-- `CRC{W, POLY, INIT, REFIN, REFOUT, XOROUT}` (R142). -/
  | crc (w : Nat) (poly init : AlgWord) (refin refout : Bool) (xorout : AlgWord)
  /-- `SUM{W, INIT, FIN}` (R143). -/
  | sum (w : Nat) (init : AlgWord) (fin : SumFin)
  /-- The vendor's open algorithm number `id`, `w` bits wide: its three functions are opaque constants
  (R11, R151; log entry 3). -/
  | vendor (w id : Nat)
deriving DecidableEq, Repr

/-- `ALG.init` of an open algorithm: a FREE VALUE of its accumulator type (R140, R151; DESIGN CHOICE, log
entry 3, safe: nothing is known of it). -/
opaque Config.vendorInit (w id : Nat) : Nat

/-- `ALG.absorb` of an open algorithm: a FREE VALUE of its arguments, hence pure (R140, R151; log entry 3). -/
opaque Config.vendorAbsorb (w id a : Nat) (b : Byte) : Nat

/-- `ALG.fin` of an open algorithm: a FREE VALUE of its arguments, hence pure (R140, R151; log entry 3), of
which the machine uses the `w` low bits: R140 makes it an unsigned `ALG.W`-bit checksum value. -/
opaque Config.vendorFin (w id a : Nat) : AlgWord

/-- The five transforms with their parameters (R173). The set is closed: tags 5 to 7 cannot be written
down (93_implementation_defined.md U2). -/
inductive Transform where
  | rawInt
  | signedInt
  /-- `FIXED`, with its scale, a rational number (R173; positive in a well-formed catalog, R177). -/
  | fixed (scale : Rat)
  /-- `BITMASK`, with `labels[i]` for bit `i` (R173). -/
  | bitmask (labels : List String)
  | ascii
deriving DecidableEq, Repr

/-- A response field descriptor (R172). -/
structure FieldDesc where
  name : String
  offset : Nat
  width : Nat
  transform : Transform
deriving DecidableEq, Repr

/-- A catalog entry (R171). `req`, the request-field schema, is uninterpreted bytes: the spec gives it no
format and no operation reads it (R178; DESIGN CHOICE, log entry 17, safe). -/
structure CatEntry where
  opcode : Byte
  name : String
  req : List Byte
  fields : List FieldDesc
deriving DecidableEq, Repr

/-- `CAT`, the catalog; an entry's index is its position (R170). -/
abbrev Catalog := List CatEntry

/-- `Cfg` (00_scope.md section 4). `OPC_W` is 1 (R7), `TRL_W` and `NCMD` are computed (R12, R13). -/
structure Cfg where
  /-- `SOF`, the start marker (R6). -/
  sof : Byte
  /-- `LEN_W`, bytes in the length field (R8). -/
  lenW : Nat
  /-- `LEN_MAX`, the hard protocol maximum of the payload length (R9). -/
  lenMax : Nat
  /-- `BO` (R10). -/
  bo : ByteOrder
  /-- `COVER_SOF`: the start marker is inside the covered span (R12, R76). -/
  coverSof : Bool
  /-- `ALG` (R11). -/
  alg : Alg
  /-- `CAT` (R13). -/
  cat : Catalog
  /-- `FW_MAX`, the largest field width in bytes (R14). -/
  fwMax : Nat
  /-- `NF_MAX`, the largest number of response fields of one entry (R14). -/
  nfMax : Nat
deriving DecidableEq, Repr

namespace Cfg

/-- `NCMD`, the number of commands (R13). -/
def ncmd (c : Cfg) : Nat := c.cat.length

end Cfg

/-- `REF-A` (R154), for tests only. -/
def algRefA : Alg := .crc 16 0x1021 0xFFFF false false 0x0000

/-- `REF-B` (R154), for tests only. -/
def algRefB : Alg := .sum 8 0x00 .id

/-- The scale 1/10 of `battery_voltage` (R180), written in lowest terms. -/
def tenth : Rat := { num := 1, den := 10, den_nz := by decide, reduced := by decide }

/-- `CAT_REF` (R180): entry 0 is the source's scenario, entries 1 to 3 the spec's own test entries. -/
def catRef : Catalog :=
  [ { opcode := 0x51, name := "QUERY_STATUS", req := [],
      fields := [⟨"battery_voltage", 2, 2, .fixed tenth⟩] },
    { opcode := 0x52, name := "TEST_INTS", req := [],
      fields := [⟨"u8", 0, 1, .rawInt⟩, ⟨"s16", 1, 2, .signedInt⟩, ⟨"u32", 3, 4, .rawInt⟩] },
    { opcode := 0x53, name := "TEST_FLAGS", req := [],
      fields :=
        [⟨"flags", 0, 1,
            .bitmask ["flag0", "flag1", "flag2", "flag3", "flag4", "flag5", "flag6", "flag7"]⟩,
         ⟨"model", 1, 6, .ascii⟩] },
    { opcode := 0x54, name := "TEST_EMPTY", req := [], fields := [] } ]

/-- `CFG_REF_A` (R15). -/
def cfgRefA : Cfg :=
  { sof := 0xA5, lenW := 1, lenMax := 32, bo := .le, coverSof := true, alg := algRefA, cat := catRef,
    fwMax := 8, nfMax := 8 }

/-- `CFG_REF_B` (R15): differs only in `ALG = REF-B`, hence `TRL_W = 1`. -/
def cfgRefB : Cfg := { cfgRefA with alg := algRefB }

end Sys2Proof
end

