-- ==== Sys2Proof/Machine/Bytes.lean ====
section
/-! DEFINITION. Byte order, the byte shifter, bit reflection and sign extension (spec 20_memory.md R54,
R55; 40_delimiter.md R111; 41_integrity.md R142; 00_scope.md R19). -/

namespace Sys2Proof.Machine

open Sys2Proof

/-- `asm_LE(s)`: the first wire byte is least significant (R55). Of no bytes, of which R55 says nothing, 0
(DESIGN CHOICE, log entry 23). -/
def asmLE : List Byte → Nat
  | [] => 0
  | b :: bs => b.toNat + 256 * asmLE bs

/-- `asm_BE(s)`: the first wire byte is most significant (R55). -/
def asmBE (s : List Byte) : Nat := asmLE s.reverse

/-- `asm_BO(s)` (R55). -/
def asm (bo : ByteOrder) (s : List Byte) : Nat :=
  match bo with
  | .le => asmLE s
  | .be => asmBE s

/-- `ser_LE(v, n)` (R55, for `n >= 1` and `v < 2^(8n)`; for other arguments, of which R55 says nothing, the same
expression: DESIGN CHOICE, log entry 23). -/
def serLE (v n : Nat) : List Byte := (List.range n).map fun i => BitVec.ofNat 8 (v >>> (8 * i))

/-- `ser_BE(v, n)` (R55; outside its range as for `serLE`, log entry 23). -/
def serBE (v n : Nat) : List Byte :=
  (List.range n).map fun i => BitVec.ofNat 8 (v >>> (8 * (n - 1 - i)))

/-- `ser_BO(v, n)` (R55). -/
def ser (bo : ByteOrder) (v n : Nat) : List Byte :=
  match bo with
  | .le => serLE v n
  | .be => serBE v n

/-- `shift_in(BO, reg, cnt, b)` on a register of `n` bits (R111). -/
def shiftIn {n : Nat} (bo : ByteOrder) (reg : BitVec n) (cnt : Nat) (b : Byte) : BitVec n :=
  match bo with
  | .le => reg ||| (b.setWidth n <<< (8 * cnt))
  | .be => (reg <<< 8) ||| b.setWidth n

/-- `reflect_n(v)`: bit `i` is bit `n-1-i` of `v`, for `i < n` (R142). -/
def reflect (n : Nat) (v : AlgWord) : AlgWord :=
  (List.range n).foldl (fun r i => if v.getLsbD (n - 1 - i) then r ||| (1#32 <<< i) else r) 0#32

/-- `sext_N(v)` for `v` an unsigned `N`-bit pattern (R19). -/
def sext (n v : Nat) : Int := if v < 2 ^ (n - 1) then (v : Int) else (v : Int) - 2 ^ n

end Sys2Proof.Machine
end

