-- ==== Sys2Proof/Machine/Integrity.lean ====
section
/-! DEFINITION. ICV's arithmetic: the algorithm interface, the CRC and additive families, the checksum of
a byte string, the table form of a CRC (spec 41_integrity.md R140 to R144; 00_scope.md R12). -/

namespace Sys2Proof.Machine

open Sys2Proof

/-- `ALG.W`, the width of the checksum in bits (R140). -/
def algW : Alg → Nat
  | .crc w _ _ _ _ _ => w
  | .sum w _ _ => w
  | .vendor w _ => w

/-- `TRL_W = ALG.W / 8` (R12). -/
def trlW (c : Cfg) : Nat := algW c.alg / 8

/-- `M = 2^W - 1` (R142). -/
def mask (w : Nat) : AlgWord := BitVec.ofNat 32 (2 ^ w - 1)

/-- One round of the CRC loop: `(if a[W-1] then (a << 1) XOR POLY else a << 1) AND M` (R142). -/
def crcStep (w : Nat) (poly a : AlgWord) : AlgWord :=
  if a.getLsbD (w - 1) then ((a <<< 1) ^^^ poly) &&& mask w else (a <<< 1) &&& mask w

/-- The eight rounds of the loop (R142). -/
def crcRounds (w : Nat) (poly a : AlgWord) : AlgWord := (crcStep w poly)^[8] a

/-- `ALG.absorb(a, b)` of the CRC family (R142). -/
def crcAbsorb (w : Nat) (poly : AlgWord) (refin : Bool) (a : AlgWord) (b : Byte) : AlgWord :=
  let bw : AlgWord := b.setWidth 32
  let b1 := if refin then reflect 8 bw else bw
  crcRounds w poly (a ^^^ (b1 <<< (w - 8)))

/-- `ALG.fin(a)` of the CRC family (R142). -/
def crcFin (w : Nat) (refout : Bool) (xorout a : AlgWord) : AlgWord :=
  (if refout then reflect w a else a) ^^^ xorout

/-- `ALG.absorb(a, b) = (a + b) mod 2^W` of the additive family (R143). -/
def sumAbsorb (w : Nat) (a : AlgWord) (b : Byte) : AlgWord := (a + b.setWidth 32) &&& mask w

/-- `ALG.fin(a)` of the additive family (R143). -/
def sumFin (w : Nat) (f : SumFin) (a : AlgWord) : AlgWord :=
  match f with
  | .id => a
  | .inv => a ^^^ mask w
  | .neg => (0#32 - a) &&& mask w

/-- `ALG.init` (R140, R142, R143). A value of the accumulator type `ALG.Acc` is a natural number of no fixed
width: for the two families an unsigned `ALG.W`-bit integer, for an open algorithm the number of the accumulator
in a numbering of that type, of which nothing is known (DESIGN CHOICE, log entry 3, safe). -/
def algInit : Alg → Nat
  | .crc _ _ init _ _ _ => init.toNat
  | .sum _ init _ => init.toNat
  | .vendor w id => Config.vendorInit w id

/-- `ALG.absorb(a, b)` (R140, R142, R143); of an open algorithm, a free value of its accumulator type (log
entry 3). -/
def algAbsorb (alg : Alg) (a : Nat) (b : Byte) : Nat :=
  match alg with
  | .crc w poly _ refin _ _ => (crcAbsorb w poly refin (BitVec.ofNat 32 a) b).toNat
  | .sum w _ _ => (sumAbsorb w (BitVec.ofNat 32 a) b).toNat
  | .vendor w id => Config.vendorAbsorb w id a b

/-- `ALG.fin(a)`, an unsigned `ALG.W`-bit value (R140, R142, R143); of an open algorithm, a free value of `W`
bits (log entry 3). -/
def algFin (alg : Alg) (a : Nat) : AlgWord :=
  match alg with
  | .crc w _ _ _ refout xorout => crcFin w refout xorout (BitVec.ofNat 32 a)
  | .sum w _ f => sumFin w f (BitVec.ofNat 32 a)
  | .vendor w id => Config.vendorFin w id a &&& mask w

/-- `a` is a value of `ALG.Acc` (R140): for the two families an unsigned `ALG.W`-bit integer, for an open
algorithm any number, since nothing is known of its accumulator type (log entry 3). -/
def AccFits (alg : Alg) (a : Nat) : Prop :=
  match alg with
  | .crc w _ _ _ _ _ => a < 2 ^ w
  | .sum w _ _ => a < 2 ^ w
  | .vendor _ _ => True

/-- The accumulator after the bytes of `s`, from `a` (R141). -/
def absorbAll (alg : Alg) (a : Nat) (s : List Byte) : Nat := s.foldl (algAbsorb alg) a

/-- `checksum(s)` (R141). -/
def checksum (alg : Alg) (s : List Byte) : AlgWord := algFin alg (absorbAll alg (algInit alg) s)

/-- Entry `t` of the 256-entry table of a table-driven CRC, unreflected form (R144). -/
def crcTableEntry (w : Nat) (poly : AlgWord) (t : Byte) : AlgWord :=
  crcRounds w poly (t.setWidth 32 <<< (w - 8))

/-- The absorb step of a table-driven CRC, unreflected form (R144): one look-up in place of the loop. It has
no address and is no state; the statement that it is `crcAbsorb` is an obligation. -/
def crcTableAbsorb (w : Nat) (poly a : AlgWord) (b : Byte) : AlgWord :=
  ((a <<< 8) &&& mask w) ^^^ crcTableEntry w poly ((a >>> (w - 8)).setWidth 8 ^^^ b)

/-- `ALG_DETECTS_BYTE` (R151): changing one byte of a string changes its checksum. A property a proof may
assume of an open algorithm only by naming it. -/
def AlgDetectsByte (alg : Alg) : Prop :=
  ∀ (u v : List Byte) (x y : Byte), x ≠ y →
    checksum alg (u ++ x :: v) ≠ checksum alg (u ++ y :: v)

end Sys2Proof.Machine
end

