-- ==== Sys2Proof/Syntax.lean ====
section
/-! DEFINITION. The instructions of AFIV: one constructor for every row of spec/opcode_table.json, and
what the host can put on the block's inputs (spec 30_encoding.md R83, R85, R89; 42_catalog.md R180). -/

namespace Sys2Proof

/-- The operations of the command port (R83), the nine reserved operation codes (R85), and the four FRAME
rows of the table: a wire byte equal to the opcode of an entry of `CAT_REF` (R89, R180; log entry 9).
An ignored argument is no operand (R84; log entry 20). -/
inductive Instr where
  /-- `NOP` (R101). -/
  | nop
  /-- `RST` (R102). -/
  | rst
  /-- `FLUSH` (R103). -/
  | flush
  /-- `PUSH b`: `b` is a byte received from the transport (R104). -/
  | push (b : Byte)
  /-- `XDEC k`: `k` is a catalog index (R191). -/
  | xdec (k : Byte)
  /-- `GINIT` (R147). -/
  | ginit
  /-- `GBYTE b`: `b` is a byte of the covered span of a frame being built (R148). -/
  | gbyte (b : Byte)
  | reserved7
  | reserved8
  | reserved9
  | reservedA
  | reservedB
  | reservedC
  | reservedD
  | reservedE
  | reservedF
  /-- Wire opcode `0x51` of `CAT_REF` entry 0 (R180). -/
  | wireQueryStatus
  /-- Wire opcode `0x52` of `CAT_REF` entry 1 (R180). -/
  | wireTestInts
  /-- Wire opcode `0x53` of `CAT_REF` entry 2 (R180). -/
  | wireTestFlags
  /-- Wire opcode `0x54` of `CAT_REF` entry 3 (R180). -/
  | wireTestEmpty
deriving DecidableEq, Repr

/-- One input of the host: a command word on the command port (R82), a raw wire byte in the table's format
FRAME (log entry 9), or an assertion of the hardware reset input (R260; log entry 8). -/
inductive HostInput where
  | command (w : CmdWord)
  | wire (b : Byte)
  | hardwareReset
deriving DecidableEq, Repr

end Sys2Proof
end

