-- ==== Sys2Proof/Machine/State.lean ====
section
/-! DEFINITION. The architectural state of one AFIV instance as plain data (spec 10_state.md R20 to R32,
R41), the values it is made of, the faults and refusals of the model, and the reset state. -/

namespace Sys2Proof.Machine

open Sys2Proof

/-- `st`, the sequencer state of FDL (R21). Encodings 6 and 7 have no meaning and no member. -/
inductive SeqState where
  /-- 0: no start marker seen since the last frame ended; bytes are being discarded. -/
  | hunt
  /-- 1: start marker taken; the next byte is the opcode. -/
  | opc
  /-- 2: taking the length field. -/
  | len
  /-- 3: taking payload bytes. -/
  | pay
  /-- 4: taking trailer bytes. -/
  | trl
  /-- 5: a validated frame is held. -/
  | hold
deriving DecidableEq, Repr

/-- `res`, the last frame-ending event (R28). Encodings 5 to 7 never occur and have no member. -/
inductive Res where
  | none
  | frameOk
  | malformed
  | unknownCmd
  | integrityMismatch
deriving DecidableEq, Repr

/-- The event codes (R221). Codes 11 to 15 are never produced and have no member. -/
inductive Event where
  | none
  | frameOk
  | malformed
  | unknownCmd
  | integrityMismatch
  | fieldOutOfRange
  | xOk
  | illegalOp
  | notHeld
  | badSel
  | overrun
deriving DecidableEq, Repr

/-- The transform's tag in a field record (R173, R200). -/
inductive Tag where
  | rawInt
  | signedInt
  | fixed
  | bitmask
  | ascii
deriving DecidableEq, Repr

/-- The value of a field (R195 to R199): an integer, an exact rational, the set of the indices of the flags
that are set in ascending order, or the bytes of a string. -/
inductive FieldValue where
  | int (v : Int)
  | rational (q : Rat)
  | flags (indices : List Nat)
  | text (bytes : List Byte)
deriving DecidableEq, Repr

/-- A record of `xout` (R200). `raw` is absent for `ASCII`; `scale` is present for `FIXED` only, `labels` for
`BITMASK` only. -/
structure FieldRecord where
  name : String
  tag : Tag
  bytes : List Byte
  raw : Option Nat
  value : FieldValue
  scale : Option Rat
  labels : Option (List String)
deriving DecidableEq, Repr

/-- The result `(ev, xout)` of an operation (R32, R86). -/
structure Result where
  ev : Event
  xout : Option (List FieldRecord)
deriving DecidableEq, Repr

/-- The payload buffer PBUF (R30, R50): its written cells, addresses strictly rising. An address that is not
listed is an unwritten cell and has no value (R59; log entry 14). -/
abbrev Memory := List Host.Cell

/-- Why the model stops where the spec's rules do not apply. No state of the invariant R42 raises one. -/
inductive Fault where
  /-- Raised by `MemWrite` at an address at or above `LEN_MAX` (R52). Safe: the spec has no such cell. -/
  | pbufWriteOutOfRange
  /-- Raised by `MemRead` outside its requirement `n >= 1`, `addr + n <= len`, `st = HOLD` (R52). Safe: the
  spec says such a read does not occur. -/
  | pbufReadOutOfRange
  /-- Raised by `MemRead` of a cell that nothing has written (R59). Safe: the spec asks for this fault. -/
  | pbufReadUnwritten
deriving DecidableEq, Repr

/-- Why the model refuses to run. -/
inductive Refusal where
  /-- Raised by an arm of `exec` for an instruction without a meaning; no arm raises it. Safe. -/
  | notModelled (mnemonic : String)
  /-- Raised by `step` when `CFG_WF(Cfg)` is false: "a model refuses an ill-formed one" (R16). Safe. -/
  | illFormedConfig
deriving DecidableEq, Repr

/-- The state. The first three fields are the model's own, the rest is the spec's record of R20. -/
structure State where
  /-- `Cfg`, a parameter of every operation that none writes (R20; log entry 1). -/
  cfg : Cfg
  /-- What the host has still to apply, the next one first (R3, R17; log entry 6). -/
  port : List HostInput
  /-- The result of the last operation, until the next one replaces it (R32; log entry 5). -/
  out : Result
  /-- `st` (R21). -/
  st : SeqState
  /-- `cnt`, 16 bits (R22). -/
  cnt : BitVec 16
  /-- `opc`, 8 bits (R23). -/
  opc : Byte
  /-- `len`, 16 bits (R24). -/
  len : BitVec 16
  /-- `trl`, `ALG.W` bits (R25; log entry 4). -/
  trl : AlgWord
  /-- `acc`, a value of `ALG.Acc` (R26; log entry 3). -/
  acc : Nat
  /-- `gacc`, a value of `ALG.Acc` (R27; log entry 3). -/
  gacc : Nat
  /-- `res` (R28). -/
  res : Res
  /-- `ovr` (R29). -/
  ovr : Bool
  /-- `pbuf` (R30). -/
  pbuf : Memory
deriving DecidableEq, Repr

/-- The state right after the hardware reset of a block built with configuration `c` (R41, R261, R262): the
registers as tabulated, every buffer cell unwritten. The result before any operation is `EV_NONE` (DESIGN
CHOICE, log entry 5, unsafe) and the host has applied nothing (DESIGN CHOICE, log entry 6, safe). -/
def State.resetWith (c : Cfg) : State :=
  { cfg := c, port := [], out := { ev := .none, xout := none },
    st := .hunt, cnt := 0, opc := 0, len := 0, trl := 0, acc := algInit c.alg, gacc := algInit c.alg,
    res := .none, ovr := false, pbuf := [] }

/-- The machine right after reset, built with the reference configuration `CFG_REF_A`, which the spec gives
"so that a model can be run" (R15; DESIGN CHOICE, log entry 2, unsafe: no statement is about it alone). -/
def State.reset : State := State.resetWith cfgRefA

end Sys2Proof.Machine
end

