-- ==== Sys2Proof/Machine/Operands.lean ====
section
/-! DEFINITION. The operand forms (spec 30_encoding.md R83, R84, R89): the 8-bit argument as a byte or as a
catalog index, and the wire byte of a FRAME row. -/

namespace Sys2Proof.Machine

open Sys2Proof

/-- `b = arg` of PUSH and GBYTE: the argument as it stands (R84). -/
def byteOperand (arg : Byte) : Byte := arg

/-- `k = arg` of XDEC: the argument as an unsigned index, never sign-extended or scaled (R84). -/
def indexOperand (arg : Byte) : Nat := arg.toNat

/-- Frame byte 1 of the row `WIRE_QUERY_STATUS` (R180). -/
def queryStatusOpcode : Byte := 0x51

/-- Frame byte 1 of the row `WIRE_TEST_INTS` (R180). -/
def testIntsOpcode : Byte := 0x52

/-- Frame byte 1 of the row `WIRE_TEST_FLAGS` (R180). -/
def testFlagsOpcode : Byte := 0x53

/-- Frame byte 1 of the row `WIRE_TEST_EMPTY` (R180). -/
def testEmptyOpcode : Byte := 0x54

end Sys2Proof.Machine
end

