-- ==== Sys2Proof/Machine/Catalog.lean ====
section
/-! DEFINITION. The functions on the catalog and the well-formedness of a configuration (spec
42_catalog.md R174 to R177; 00_scope.md R14, R16). -/

namespace Sys2Proof.Machine

open Sys2Proof

/-- `lookup(o)`: the index of the entry whose opcode is `o` (R174). Where two entries had the opcode, which
`CAT_WF` rules out (R175), it would be the first. -/
def lookup (cat : Catalog) (o : Byte) : Option Nat := cat.findIdx? fun e => e.opcode == o

/-- `need(k)` of the entry at index `k`: the largest `offset + width` of its descriptors, 0 when it has none
(R176). -/
def need (e : CatEntry) : Nat := e.fields.foldr (fun d m => max (d.offset + d.width) m) 0

/-- A descriptor within `CAT_WF` (R177): `1 <= width <= FW_MAX`, a positive scale, at most `8*width` labels. -/
def fieldWf (fwMax : Nat) (d : FieldDesc) : Bool :=
  decide (1 ≤ d.width) && decide (d.width ≤ fwMax) &&
    match d.transform with
    | .fixed q => decide (0 < q.num)
    | .bitmask labels => decide (labels.length ≤ 8 * d.width)
    | .rawInt => true
    | .signedInt => true
    | .ascii => true

/-- An entry within `CAT_WF` (R177): at most `NF_MAX` descriptors, each well formed, with unique names. -/
def entryWf (fwMax nfMax : Nat) (e : CatEntry) : Bool :=
  decide (e.fields.length ≤ nfMax) && e.fields.all (fieldWf fwMax) &&
    decide ((e.fields.map FieldDesc.name).Nodup)

/-- `CAT_WF(CAT)` (R175, R177). -/
def catWf (fwMax nfMax : Nat) (cat : Catalog) : Bool :=
  decide (cat.length ≤ 256) && decide ((cat.map CatEntry.opcode).Nodup) &&
    cat.all (entryWf fwMax nfMax)

/-- `ALG.W` is 8, 16 or 32 (R16, R140), and the parameters of a family are `W`-bit values (R142, R143). -/
def algWf (alg : Alg) : Bool :=
  (algW alg == 8 || algW alg == 16 || algW alg == 32) &&
    match alg with
    | .crc w poly init _ _ xorout =>
      poly &&& mask w == poly && init &&& mask w == init && xorout &&& mask w == xorout
    | .sum w init _ => init &&& mask w == init
    | .vendor _ _ => true

/-- `CFG_WF(Cfg)` (R16), with the legal ranges that 00_scope.md section 4 gives `FW_MAX` and `NF_MAX`
(DEDUCED, log entry 13, safe). -/
def cfgWf (c : Cfg) : Bool :=
  (c.lenW == 1 || c.lenW == 2) && decide (c.lenMax < 2 ^ (8 * c.lenW)) && algWf c.alg &&
    decide (1 ≤ c.fwMax) && decide (c.fwMax ≤ 255) && decide (c.nfMax ≤ 255) &&
    catWf c.fwMax c.nfMax c.cat

end Sys2Proof.Machine
end

