-- ==== Sys2Proof/Machine/Ops.lean ====
section
/-! DEFINITION. The named operations over the payload buffer and the registers, and raising an event (spec
20_memory.md R51, R52, R59; 00_scope.md R19; 60_exceptions.md R220 to R236). -/

namespace Sys2Proof.Machine

open Sys2Proof

/-- The byte of cell `a`, or nothing where the cell is unwritten (R30, R59). -/
def Memory.read : Memory → Nat → Option Byte
  | [], _ => none
  | (b, v) :: m, a => if a = b then some v else Memory.read m a

/-- `pbuf[a] <- v`: no other cell changes (R52). Keeps the addresses strictly rising. -/
def Memory.write : Memory → Nat → Byte → Memory
  | [], a, v => [(a, v)]
  | (b, w) :: m, a, v =>
    if a < b then (a, v) :: (b, w) :: m
    else if a = b then (a, v) :: m
    else (b, w) :: Memory.write m a v

/-- The canonical form: addresses strictly rising. An unlisted address has no value, so no entry can repeat
what an unlisted address reads as. -/
def Memory.wf : Memory → Bool
  | [] => true
  | [_] => true
  | (a, _) :: (b, w) :: m => decide (a < b) && Memory.wf ((b, w) :: m)

/-- The `n` cells from `a` on, lowest offset first (R52); an unwritten cell is a model fault (R59). -/
def Memory.readSpan (m : Memory) : Nat → Nat → Except Fault (List Byte)
  | _, 0 => .ok []
  | a, n + 1 =>
    match Memory.read m a with
    | none => .error .pbufReadUnwritten
    | some b =>
      match Memory.readSpan m (a + 1) n with
      | .ok bs => .ok (b :: bs)
      | .error f => .error f

/-- `MemWrite(addr, 1, v)`, which requires `addr < LEN_MAX` (R52). -/
def memWrite (s : State) (addr : Nat) (v : Byte) : Except Fault State :=
  if addr < s.cfg.lenMax then .ok { s with pbuf := Memory.write s.pbuf addr v }
  else .error .pbufWriteOutOfRange

/-- `MemRead(addr, n)`, which requires `n >= 1`, `addr + n <= len` and `st = HOLD` (R52). -/
def memRead (s : State) (addr n : Nat) : Except Fault (List Byte) :=
  if 1 ≤ n ∧ addr + n ≤ s.len.toNat ∧ s.st = .hold then Memory.readSpan s.pbuf addr n
  else .error .pbufReadOutOfRange

/-- `raise EV_X` (R19, R234): the result's event code is `EV_X`, `xout` is absent, and the state changes as
the event's own rule says (R222 to R231). `EV_NONE` is the result of an operation that raises nothing. -/
def raise (e : Event) (s : State) : State :=
  match e with
  | .none => { s with out := ⟨.none, none⟩ }
  | .frameOk => { s with out := ⟨.frameOk, none⟩, st := .hold, res := .frameOk }
  | .malformed => { s with out := ⟨.malformed, none⟩, st := .hunt, res := .malformed }
  | .unknownCmd => { s with out := ⟨.unknownCmd, none⟩, st := .hunt, res := .unknownCmd }
  | .integrityMismatch =>
    { s with out := ⟨.integrityMismatch, none⟩, st := .hunt, res := .integrityMismatch }
  | .fieldOutOfRange => { s with out := ⟨.fieldOutOfRange, none⟩ }
  | .xOk => { s with out := ⟨.xOk, none⟩ }
  | .illegalOp => { s with out := ⟨.illegalOp, none⟩ }
  | .notHeld => { s with out := ⟨.notHeld, none⟩ }
  | .badSel => { s with out := ⟨.badSel, none⟩ }
  | .overrun => { s with out := ⟨.overrun, none⟩, ovr := true }

/-- `EV_X_OK` with its `xout` present: no register changes (R227, R200). -/
def deliver (recs : List FieldRecord) (s : State) : State := { s with out := ⟨.xOk, some recs⟩ }

/-- The whole effect of `RST` on the registers, and of the hardware reset besides the buffer (R41, R102,
R260): `pbuf` unchanged. -/
def resetRegisters (s : State) : State :=
  { s with
    st := .hunt, cnt := 0, opc := 0, len := 0, trl := 0, acc := algInit s.cfg.alg,
    gacc := algInit s.cfg.alg, res := .none, ovr := false }

/-- The hardware reset input (R260): every register at its reset value, every buffer cell unwritten (R41,
R262), no result outstanding. What the host has still to apply is the host's and stays (DEDUCED, log entry 8,
safe). -/
def hardwareReset (s : State) : State := { State.resetWith s.cfg with port := s.port }

/-- Dropping the frame in progress or held (R103): `opc`, `len`, `trl`, `gacc`, `pbuf` unchanged. This is also
how a held frame is released (R235, R266). -/
def flushFrame (s : State) : State :=
  { s with st := .hunt, cnt := 0, acc := algInit s.cfg.alg, res := .none, ovr := false }

/-- `ALG.absorb` on the receive side: `acc <- ALG.absorb(acc, b)` (R146). -/
def absorbed (s : State) (b : Byte) : Nat := algAbsorb s.cfg.alg s.acc b

/-- `trl' = shift_in(BO, trl, cnt, b)` on the `ALG.W`-bit register (R109, R111). -/
def trlShifted (s : State) (b : Byte) : AlgWord :=
  (shiftIn s.cfg.bo (s.trl.setWidth (algW s.cfg.alg)) s.cnt.toNat b).setWidth 32

/-- `len' = shift_in(BO, len, cnt, b)` on the 16-bit register (R107, R111). -/
def lenShifted (s : State) (b : Byte) : BitVec 16 := shiftIn s.cfg.bo s.len s.cnt.toNat b

end Sys2Proof.Machine
end

