-- ==== Sys2Proof/Machine/Delimiter.lean ====
section
/-! DEFINITION. FDL's operations NOP, RST, FLUSH and PUSH (spec 40_delimiter.md R100 to R114). -/

namespace Sys2Proof.Machine

open Sys2Proof

/-- `NOP` (R101). -/
def execNop (s : State) : Host.Outcome State Fault Refusal := .next (raise .none s)

/-- `RST` (R102). -/
def execRst (s : State) : Host.Outcome State Fault Refusal := .next (raise .none (resetRegisters s))

/-- `FLUSH` (R103). -/
def execFlush (s : State) : Host.Outcome State Fault Refusal := .next (raise .none (flushFrame s))

/-- The accumulator when a start marker is taken: over the marker itself if `COVER_SOF` (R105, R146). -/
def startAcc (c : Cfg) : Nat :=
  if c.coverSof then algAbsorb c.alg (algInit c.alg) c.sof else algInit c.alg

/-- PUSH in `HUNT` (R105): a start marker begins a frame, any other byte is discarded. -/
def pushHunt (b : Byte) (s : State) : State :=
  if b = s.cfg.sof then raise .none { s with acc := startAcc s.cfg, st := .opc, cnt := 0 }
  else raise .none s

/-- PUSH in `OPC` (R106): the opcode byte, whatever its value. -/
def pushOpc (b : Byte) (s : State) : State :=
  raise .none { s with opc := b, acc := absorbed s b, len := 0, st := .len, cnt := 0 }

/-- PUSH in `LEN` (R107). -/
def pushLen (b : Byte) (s : State) : State :=
  let s1 := { s with acc := absorbed s b, len := lenShifted s b }
  if s.cnt.toNat + 1 < s.cfg.lenW then raise .none { s1 with cnt := s.cnt + 1 }
  else
    let s2 := { s1 with cnt := 0 }
    if s.cfg.lenMax < s2.len.toNat then raise .malformed s2
    else if s2.len = 0 then raise .none { s2 with trl := 0, st := .trl }
    else raise .none { s2 with st := .pay }

/-- The registers after a payload byte has been stored (R108). -/
def pushPayRegs (b : Byte) (s : State) : State :=
  if s.cnt.toNat + 1 = s.len.toNat then
    raise .none { s with acc := absorbed s b, trl := 0, st := .trl, cnt := 0 }
  else raise .none { s with acc := absorbed s b, cnt := s.cnt + 1 }

/-- PUSH in `PAY` (R108): `pbuf[cnt] <- b`. -/
def pushPay (b : Byte) (s : State) : Host.Outcome State Fault Refusal :=
  match memWrite s s.cnt.toNat b with
  | .ok s1 => .next (pushPayRegs b s1)
  | .error f => .fault f

/-- The verdict on a complete frame: integrity before the catalog (R109, R233). -/
def verdict (s : State) : Event :=
  if s.trl ≠ algFin s.cfg.alg s.acc then .integrityMismatch
  else
    match lookup s.cfg.cat s.opc with
    | none => .unknownCmd
    | some _ => .frameOk

/-- PUSH in `TRL` (R109): the trailer is not covered, so `acc` is not advanced. -/
def pushTrl (b : Byte) (s : State) : State :=
  let s1 := { s with trl := trlShifted s b }
  if s.cnt.toNat + 1 < trlW s.cfg then raise .none { s1 with cnt := s.cnt + 1 }
  else raise (verdict s1) { s1 with cnt := 0 }

/-- A received byte given to FDL, by the state of the sequencer (R104 to R110). In `HOLD` the byte is
discarded with `EV_OVERRUN` (R110). -/
def pushByte (b : Byte) (s : State) : Host.Outcome State Fault Refusal :=
  match s.st with
  | .hunt => .next (pushHunt b s)
  | .opc => .next (pushOpc b s)
  | .len => .next (pushLen b s)
  | .pay => pushPay b s
  | .trl => .next (pushTrl b s)
  | .hold => .next (raise .overrun s)

/-- `PUSH b` (R104). -/
def execPush (b : Byte) (s : State) : Host.Outcome State Fault Refusal := pushByte (byteOperand b) s

end Sys2Proof.Machine
end

