-- ==== Sys2Proof/Machine/Extractor.lean ====
section
/-! DEFINITION. RFX: the five transforms, the field record and XDEC (spec 43_extractor.md R190 to R206). -/

namespace Sys2Proof.Machine

open Sys2Proof

/-- The indices of the bits that are set, of `n` bits, bit 0 the least significant (R198). -/
def setBits (n v : Nat) : List Nat := (List.range n).filter fun i => v.testBit i

/-- The tag of a transform (R173). -/
def transformTag : Transform → Tag
  | .rawInt => .rawInt
  | .signedInt => .signedInt
  | .fixed _ => .fixed
  | .bitmask _ => .bitmask
  | .ascii => .ascii

/-- The value of a field with transform `t` and bytes `bs`, as many as its width (R195 to R199). -/
def fieldValue (bo : ByteOrder) (t : Transform) (bs : List Byte) : FieldValue :=
  match t with
  | .rawInt => .int (asm bo bs)
  | .signedInt => .int (sext (8 * bs.length) (asm bo bs))
  | .fixed scale => .rational ((asm bo bs : Rat) * scale)
  | .bitmask _ => .flags (setBits (8 * bs.length) (asm bo bs))
  | .ascii => .text bs

/-- `raw = u(d)`, absent for `ASCII` (R200). -/
def fieldRaw (bo : ByteOrder) (t : Transform) (bs : List Byte) : Option Nat :=
  match t with
  | .rawInt => some (asm bo bs)
  | .signedInt => some (asm bo bs)
  | .fixed _ => some (asm bo bs)
  | .bitmask _ => some (asm bo bs)
  | .ascii => none

/-- `scale`, for `FIXED` only (R200). -/
def fieldScale : Transform → Option Rat
  | .rawInt => none
  | .signedInt => none
  | .fixed scale => some scale
  | .bitmask _ => none
  | .ascii => none

/-- `labels`, for `BITMASK` only (R200). -/
def fieldLabels : Transform → Option (List String)
  | .rawInt => none
  | .signedInt => none
  | .fixed _ => none
  | .bitmask labels => some labels
  | .ascii => none

/-- The record of a descriptor whose bytes are `bs` (R200). -/
def recordOf (bo : ByteOrder) (d : FieldDesc) (bs : List Byte) : FieldRecord :=
  { name := d.name, tag := transformTag d.transform, bytes := bs,
    raw := fieldRaw bo d.transform bs, value := fieldValue bo d.transform bs,
    scale := fieldScale d.transform, labels := fieldLabels d.transform }

/-- `field_record(d)`, from `bytes(d) = MemRead(d.offset, d.width)` (R194, R200). -/
def fieldRecord (s : State) (d : FieldDesc) : Except Fault FieldRecord :=
  match memRead s d.offset d.width with
  | .ok bs => .ok (recordOf s.cfg.bo d bs)
  | .error f => .error f

/-- One record per descriptor, in the catalog's order (R191, R200). -/
def fieldRecords (s : State) : List FieldDesc → Except Fault (List FieldRecord)
  | [] => .ok []
  | d :: ds =>
    match fieldRecord s d with
    | .error f => .error f
    | .ok r =>
      match fieldRecords s ds with
      | .ok rs => .ok (r :: rs)
      | .error f => .error f

/-- The extraction under the schema of entry `e` (R191 to R193): the range check once, before any field. -/
def extract (e : CatEntry) (s : State) : Host.Outcome State Fault Refusal :=
  if s.len.toNat < need e then .next (raise .fieldOutOfRange s)
  else
    match fieldRecords s e.fields with
    | .ok recs => .next (deliver recs s)
    | .error f => .fault f

/-- `XDEC k` (R191): not held, then bad index, then out of range, then the records (R233). -/
def execXdec (k : Byte) (s : State) : Host.Outcome State Fault Refusal :=
  if s.st = .hold then
    match s.cfg.cat[indexOperand k]? with
    | none => .next (raise .badSel s)
    | some e => extract e s
  else .next (raise .notHeld s)

/-- What a lane of the physical port holds for a record (R200): `raw` zero-extended, or, for `ASCII`, the bytes
with the first wire byte in bits 7:0. Orientation (93_implementation_defined.md U16). -/
def laneOf (r : FieldRecord) : Nat := r.raw.getD (asmLE r.bytes)

/-- The `NF_MAX` lanes of a result: a lane with no record is invalid (R200). -/
def lanes (c : Cfg) (r : Result) : List (Option Nat) :=
  (List.range c.nfMax).map fun j => ((r.xout.getD [])[j]?).map laneOf

end Sys2Proof.Machine
end

