-- ==== Sys2Proof/Machine/Generator.lean ====
section
/-! DEFINITION. ICV's generator port: GINIT and GBYTE (spec 41_integrity.md R147, R148). -/

namespace Sys2Proof.Machine

open Sys2Proof

/-- `GINIT` (R147). -/
def execGinit (s : State) : Host.Outcome State Fault Refusal :=
  .next (raise .none { s with gacc := algInit s.cfg.alg })

/-- `GBYTE b` (R148). -/
def execGbyte (b : Byte) (s : State) : Host.Outcome State Fault Refusal :=
  .next (raise .none { s with gacc := algAbsorb s.cfg.alg s.gacc (byteOperand b) })

end Sys2Proof.Machine
end

