-- ==== Sys2Proof/Machine/Reserved.lean ====
section
/-! DEFINITION. The reserved operation codes 0x7 to 0xF (spec 30_encoding.md R85; 60_exceptions.md R228). -/

namespace Sys2Proof.Machine

open Sys2Proof

/-- A reserved operation code: no state change, `EV_ILLEGAL_OP`; the argument is ignored (R85, R228). -/
def illegalOp (s : State) : Host.Outcome State Fault Refusal := .next (raise .illegalOp s)

/-- Operation code `0x7` (R85). -/
def execReserved7 (s : State) : Host.Outcome State Fault Refusal := illegalOp s

/-- Operation code `0x8` (R85). -/
def execReserved8 (s : State) : Host.Outcome State Fault Refusal := illegalOp s

/-- Operation code `0x9` (R85). -/
def execReserved9 (s : State) : Host.Outcome State Fault Refusal := illegalOp s

/-- Operation code `0xA` (R85). -/
def execReservedA (s : State) : Host.Outcome State Fault Refusal := illegalOp s

/-- Operation code `0xB` (R85). -/
def execReservedB (s : State) : Host.Outcome State Fault Refusal := illegalOp s

/-- Operation code `0xC` (R85). -/
def execReservedC (s : State) : Host.Outcome State Fault Refusal := illegalOp s

/-- Operation code `0xD` (R85). -/
def execReservedD (s : State) : Host.Outcome State Fault Refusal := illegalOp s

/-- Operation code `0xE` (R85). -/
def execReservedE (s : State) : Host.Outcome State Fault Refusal := illegalOp s

/-- Operation code `0xF` (R85). -/
def execReservedF (s : State) : Host.Outcome State Fault Refusal := illegalOp s

end Sys2Proof.Machine
end

