-- ==== Sys2Proof/Machine/WireOpcodes.lean ====
section
/-! DEFINITION. The four FRAME rows of the opcode table (spec 30_encoding.md R89; 42_catalog.md R180). Such a
row is a wire byte, no operation of the command port; a wire byte reaches the block only as a received byte
that the host pushes (R104), so its effect is that of pushing it (DESIGN CHOICE, log entry 9, safe). In `OPC` it
is frame byte 1, the opcode (R106), and the verdict at the frame's end looks it up (R109). -/

namespace Sys2Proof.Machine

open Sys2Proof

/-- The wire opcode of `QUERY_STATUS`, entry 0 of `CAT_REF` (R180). -/
def execWireQueryStatus (s : State) : Host.Outcome State Fault Refusal := pushByte queryStatusOpcode s

/-- The wire opcode of `TEST_INTS`, entry 1 of `CAT_REF` (R180). -/
def execWireTestInts (s : State) : Host.Outcome State Fault Refusal := pushByte testIntsOpcode s

/-- The wire opcode of `TEST_FLAGS`, entry 2 of `CAT_REF` (R180). -/
def execWireTestFlags (s : State) : Host.Outcome State Fault Refusal := pushByte testFlagsOpcode s

/-- The wire opcode of `TEST_EMPTY`, entry 3 of `CAT_REF` (R180). -/
def execWireTestEmpty (s : State) : Host.Outcome State Fault Refusal := pushByte testEmptyOpcode s

end Sys2Proof.Machine
end

