-- ==== Sys2Proof/Machine/Dispatch.lean ====
section
/-! DEFINITION. The meaning of every instruction, one arm per constructor. -/

namespace Sys2Proof.Machine

open Sys2Proof

def exec (i : Instr) (s : State) : Host.Outcome State Fault Refusal :=
  match i with
  | .nop => Sys2Proof.Machine.execNop s
  | .rst => Sys2Proof.Machine.execRst s
  | .flush => Sys2Proof.Machine.execFlush s
  | .push b => Sys2Proof.Machine.execPush b s
  | .xdec k => Sys2Proof.Machine.execXdec k s
  | .ginit => Sys2Proof.Machine.execGinit s
  | .gbyte b => Sys2Proof.Machine.execGbyte b s
  | .reserved7 => Sys2Proof.Machine.execReserved7 s
  | .reserved8 => Sys2Proof.Machine.execReserved8 s
  | .reserved9 => Sys2Proof.Machine.execReserved9 s
  | .reservedA => Sys2Proof.Machine.execReservedA s
  | .reservedB => Sys2Proof.Machine.execReservedB s
  | .reservedC => Sys2Proof.Machine.execReservedC s
  | .reservedD => Sys2Proof.Machine.execReservedD s
  | .reservedE => Sys2Proof.Machine.execReservedE s
  | .reservedF => Sys2Proof.Machine.execReservedF s
  | .wireQueryStatus => Sys2Proof.Machine.execWireQueryStatus s
  | .wireTestInts => Sys2Proof.Machine.execWireTestInts s
  | .wireTestFlags => Sys2Proof.Machine.execWireTestFlags s
  | .wireTestEmpty => Sys2Proof.Machine.execWireTestEmpty s

end Sys2Proof.Machine
end

