-- ==== Sys2Proof/Decode.lean ====
section
/-! DEFINITION. Decoding and encoding (spec 30_encoding.md R82 to R88, 42_catalog.md R180): the opcode
table as rows, the decoder of a command word and of a wire byte, the encoder with the canonical words of
R87, the pseudo-operations and the assembler spelling of R87. -/

namespace Sys2Proof

/-- Why a word is no instruction: its width is that of neither format of the table (log entry 11, safe). -/
inductive DecodeReject where
  /-- Neither a FRAME byte (8 bits) nor a command word (12 bits, 16 in whole bytes). -/
  | noSuchFormat (nbits : Nat)
deriving DecidableEq, Repr

/-- `op = CW[11:8]` (R82, R88). -/
def opField (w : CmdWord) : BitVec 4 := w.extractLsb' 8 4

/-- `arg = CW[7:0]` (R82, R88), used as it stands (R84). -/
def argField (w : CmdWord) : Byte := w.extractLsb' 0 8

/-- The operation map of R83: every value of `op` has a meaning (R88); the last arm is `op = 0xF`. -/
def decodeCommand (w : CmdWord) : Instr :=
  match (opField w).toNat with
  | 0 => .nop
  | 1 => .rst
  | 2 => .flush
  | 3 => .push (argField w)
  | 4 => .xdec (argField w)
  | 5 => .ginit
  | 6 => .gbyte (argField w)
  | 7 => .reserved7
  | 8 => .reserved8
  | 9 => .reserved9
  | 10 => .reservedA
  | 11 => .reservedB
  | 12 => .reservedC
  | 13 => .reservedD
  | 14 => .reservedE
  | _ => .reservedF

/-- A raw wire byte: one of the four FRAME rows (R180); any other byte reaches the block as a received byte
always does, by PUSH (R104; DESIGN CHOICE, log entry 10, safe: it is PUSH's own effect). -/
def decodeWire (b : Byte) : Instr :=
  match b.toNat with
  | 0x51 => .wireQueryStatus
  | 0x52 => .wireTestInts
  | 0x53 => .wireTestFlags
  | 0x54 => .wireTestEmpty
  | _ => .push b

/-- The instruction of a host input; the hardware reset input is not one. -/
def decodeInput : HostInput → Option Instr
  | .command w => some (decodeCommand w)
  | .wire b => some (decodeWire b)
  | .hardwareReset => none

/-- What the host presents when it applies a word of `nbits` bits: 8 bits are a FRAME byte, 12 bits (16 in
whole bytes) a command word, of which the port's twelve lines take bits 11:0 (DESIGN CHOICE, log entry 11,
unsafe: a port that looks at bits 15:12 would differ). Any other width is rejected by name. -/
def inputOfWord (nbits w : Nat) : Except DecodeReject HostInput :=
  match nbits with
  | 8 => .ok (.wire (BitVec.ofNat 8 w))
  | 12 => .ok (.command (BitVec.ofNat 12 w))
  | 16 => .ok (.command (BitVec.ofNat 12 w))
  | n => .error (.noSuchFormat n)

/-- The instruction read from a word of `nbits` bits, as spec/opcode_table.json numbers them. -/
def decodeTableWord (nbits w : Nat) : Option Instr :=
  match inputOfWord nbits w with
  | .ok i => decodeInput i
  | .error _ => none

/-- A command word from its two fields (R82). -/
def commandWord (op : BitVec 4) (arg : Byte) : CmdWord := op ++ arg

/-- The canonical encoding of an instruction (R84, R87): an ignored argument is 0. -/
def encode : Instr → HostInput
  | .nop => .command (commandWord 0x0 0)
  | .rst => .command (commandWord 0x1 0)
  | .flush => .command (commandWord 0x2 0)
  | .push b => .command (commandWord 0x3 b)
  | .xdec k => .command (commandWord 0x4 k)
  | .ginit => .command (commandWord 0x5 0)
  | .gbyte b => .command (commandWord 0x6 b)
  | .reserved7 => .command (commandWord 0x7 0)
  | .reserved8 => .command (commandWord 0x8 0)
  | .reserved9 => .command (commandWord 0x9 0)
  | .reservedA => .command (commandWord 0xA 0)
  | .reservedB => .command (commandWord 0xB 0)
  | .reservedC => .command (commandWord 0xC 0)
  | .reservedD => .command (commandWord 0xD 0)
  | .reservedE => .command (commandWord 0xE 0)
  | .reservedF => .command (commandWord 0xF 0)
  | .wireQueryStatus => .wire 0x51
  | .wireTestInts => .wire 0x52
  | .wireTestFlags => .wire 0x53
  | .wireTestEmpty => .wire 0x54

/-- The bits of a host input as the table numbers them, with their count in whole bytes. -/
def wordOfInput : HostInput → Option (Nat × Nat)
  | .command w => some (16, w.toNat)
  | .wire b => some (8, b.toNat)
  | .hardwareReset => none

/-- The table's spelling of an instruction. -/
def Instr.mnemonic : Instr → String
  | .nop => "NOP"
  | .rst => "RST"
  | .flush => "FLUSH"
  | .push _ => "PUSH"
  | .xdec _ => "XDEC"
  | .ginit => "GINIT"
  | .gbyte _ => "GBYTE"
  | .reserved7 => "RESERVED_7"
  | .reserved8 => "RESERVED_8"
  | .reserved9 => "RESERVED_9"
  | .reservedA => "RESERVED_A"
  | .reservedB => "RESERVED_B"
  | .reservedC => "RESERVED_C"
  | .reservedD => "RESERVED_D"
  | .reservedE => "RESERVED_E"
  | .reservedF => "RESERVED_F"
  | .wireQueryStatus => "WIRE_QUERY_STATUS"
  | .wireTestInts => "WIRE_TEST_INTS"
  | .wireTestFlags => "WIRE_TEST_FLAGS"
  | .wireTestEmpty => "WIRE_TEST_EMPTY"

/-- The two formats of the opcode table. -/
inductive RowFormat where
  | cw12
  | frame
deriving DecidableEq, Repr

/-- A row of spec/opcode_table.json: mnemonic, format, `match` and `mask`. -/
structure TableRow where
  mnemonic : String
  format : RowFormat
  pattern : CmdWord
  mask : CmdWord
deriving DecidableEq, Repr

/-- spec/opcode_table.json, row by row. -/
def opcodeTable : List TableRow :=
  [ ⟨"NOP", .cw12, 0x000, 0xF00⟩, ⟨"RST", .cw12, 0x100, 0xF00⟩, ⟨"FLUSH", .cw12, 0x200, 0xF00⟩,
    ⟨"PUSH", .cw12, 0x300, 0xF00⟩, ⟨"XDEC", .cw12, 0x400, 0xF00⟩, ⟨"GINIT", .cw12, 0x500, 0xF00⟩,
    ⟨"GBYTE", .cw12, 0x600, 0xF00⟩, ⟨"RESERVED_7", .cw12, 0x700, 0xF00⟩,
    ⟨"RESERVED_8", .cw12, 0x800, 0xF00⟩, ⟨"RESERVED_9", .cw12, 0x900, 0xF00⟩,
    ⟨"RESERVED_A", .cw12, 0xA00, 0xF00⟩, ⟨"RESERVED_B", .cw12, 0xB00, 0xF00⟩,
    ⟨"RESERVED_C", .cw12, 0xC00, 0xF00⟩, ⟨"RESERVED_D", .cw12, 0xD00, 0xF00⟩,
    ⟨"RESERVED_E", .cw12, 0xE00, 0xF00⟩, ⟨"RESERVED_F", .cw12, 0xF00, 0xF00⟩,
    ⟨"WIRE_QUERY_STATUS", .frame, 0x51, 0xFF⟩, ⟨"WIRE_TEST_INTS", .frame, 0x52, 0xFF⟩,
    ⟨"WIRE_TEST_FLAGS", .frame, 0x53, 0xFF⟩, ⟨"WIRE_TEST_EMPTY", .frame, 0x54, 0xFF⟩ ]

/-- A host input is a word of a row: its format is the row's and its masked bits are the row's pattern. -/
def TableRow.covers (r : TableRow) : HostInput → Bool
  | .command w => r.format == .cw12 && w &&& r.mask == r.pattern
  | .wire b => r.format == .frame && b.setWidth 12 &&& r.mask == r.pattern
  | .hardwareReset => false

/-- `PUSHS b0 … bn` (R87). -/
def pushs (bs : List Byte) : List Instr := bs.map .push

/-- `GSUM b0 … bn` (R87). -/
def gsum (bs : List Byte) : List Instr := .ginit :: bs.map .gbyte

/-- One hexadecimal digit, as the spec's examples print it. -/
def hexDigit (n : Nat) : Char := "0123456789ABCDEF".toList.getD n '0'

/-- A byte as `0x51` (R87). -/
def hexByte (b : Byte) : String :=
  "0x" ++ String.ofList [hexDigit (b.toNat / 16), hexDigit (b.toNat % 16)]

/-- The assembler line of an operation (R87); the reserved codes and the FRAME rows have no syntax. -/
def Instr.asmLine : Instr → Option String
  | .nop => some "NOP"
  | .rst => some "RST"
  | .flush => some "FLUSH"
  | .push b => some ("PUSH " ++ hexByte b)
  | .xdec k => some ("XDEC " ++ hexByte k)
  | .ginit => some "GINIT"
  | .gbyte b => some ("GBYTE " ++ hexByte b)
  | .reserved7 => none
  | .reserved8 => none
  | .reserved9 => none
  | .reservedA => none
  | .reservedB => none
  | .reservedC => none
  | .reservedD => none
  | .reservedE => none
  | .reservedF => none
  | .wireQueryStatus => none
  | .wireTestInts => none
  | .wireTestFlags => none
  | .wireTestEmpty => none

end Sys2Proof
end

