-- ==== Sys2Proof/Machine/Port.lean ====
section
/-! DEFINITION. Taking the host's next input (spec 00_scope.md R3, R16, R17; 30_encoding.md R82, R88;
70_reset_and_hazards.md R260). -/

namespace Sys2Proof.Machine

open Sys2Proof

/-- What the block does next. -/
inductive Taken where
  /-- The host applies nothing: nothing happens (R17). -/
  | idle
  /-- The hardware reset input was asserted; the state after it (R260). -/
  | reset (s : State)
  /-- The host applies an operation in the given state, whose port no longer holds it. -/
  | run (i : Instr) (s : State)
  /-- The configuration is ill formed (R16). -/
  | refuse (r : Refusal)
deriving DecidableEq, Repr

/-- The host's next input (R17), in a well-formed configuration only (R16; log entry 12). -/
def take (s : State) : Taken :=
  if cfgWf s.cfg then
    match s.port with
    | [] => .idle
    | w :: rest =>
      match decodeInput w with
      | some i => .run i { s with port := rest }
      | none => .reset (hardwareReset { s with port := rest })
  else .refuse .illFormedConfig

/-- `s` with the word as the next input, in place of the one that was next (log entry 6). A word of neither
format of the table leaves the port as it is. -/
def placeWord (s : State) (nbits w : Nat) : State :=
  match inputOfWord nbits w with
  | .ok i => { s with port := i :: s.port.tail }
  | .error _ => s

end Sys2Proof.Machine
end

