-- ==== Sys2Proof/Machine/Step.lean ====
section
/-! DEFINITION. One step: the host applies its next input (spec 00_scope.md R17). -/

namespace Sys2Proof.Machine

open Sys2Proof

/-- One step of the host against the block. With nothing to apply, nothing happens: the state stays as it is
(R17; DEDUCED, log entry 7, safe). -/
def step (s : State) : Host.Outcome State Fault Refusal :=
  match take s with
  | .idle => .next s
  | .reset t => .next t
  | .run i t => exec i t
  | .refuse r => .refused r

/-- `s` with the instruction's word at the command port, so that the next step runs it (log entry 6). -/
def State.withFetchWord (s : State) (nbits w : Nat) : State := placeWord s nbits w

end Sys2Proof.Machine
end

