-- ==== Sys2Proof/Machine/Frame.lean ====
section
/-! DEFINITION. The wire frame as a byte string: the covered span, the frame predicate, the encode function
and the buffer form of decoding (spec 30_encoding.md R70 to R79; 40_delimiter.md R115). The block executes
none of them; its statements are made through them. -/

namespace Sys2Proof.Machine

open Sys2Proof

/-- `covered(frame)` for opcode `o`, length field bytes `lenBytes` and payload `p` (R76). -/
def covered (c : Cfg) (o : Byte) (lenBytes p : List Byte) : List Byte :=
  (if c.coverSof then [c.sof] else []) ++ o :: (lenBytes ++ p)

/-- `encode_frame(o, p)` (R79), which the spec defines for `|p| <= LEN_MAX` only (91_not_in_source.md N21). For
a longer payload it is the same expression, its length field the low `LEN_W` bytes of `|p|` (DESIGN CHOICE, log
entry 23, safe: no rule and no statement uses it there). -/
def encodeFrame (c : Cfg) (o : Byte) (p : List Byte) : List Byte :=
  let lenBytes := ser c.bo p.length c.lenW
  c.sof :: o :: (lenBytes ++ p ++
    ser c.bo (checksum c.alg (covered c o lenBytes p)).toNat (trlW c))

/-- `L` of a byte string read as a frame: `asm_BO(f[2 .. 2+LEN_W))` (R78). -/
def frameLen (c : Cfg) (f : List Byte) : Nat := asm c.bo ((f.drop 2).take c.lenW)

/-- The payload bytes of a byte string read as a frame (R70). -/
def framePayload (c : Cfg) (f : List Byte) : List Byte := (f.drop (2 + c.lenW)).take (frameLen c f)

/-- The covered span of a byte string read as a frame (R76): all of it but the trailer, and but the start
marker unless `COVER_SOF`. -/
def frameCovered (c : Cfg) (f : List Byte) : List Byte :=
  let body := f.take (f.length - trlW c)
  if c.coverSof then body else body.drop 1

/-- `frame_wf(f)`, the frame predicate (R78). -/
def frameWf (c : Cfg) (f : List Byte) : Bool :=
  decide (2 + c.lenW + trlW c ≤ f.length) && f[0]? == some c.sof &&
    decide (frameLen c f ≤ c.lenMax) && f.length == 2 + c.lenW + frameLen c f + trlW c &&
    asm c.bo (f.drop (f.length - trlW c)) == (checksum c.alg (frameCovered c f)).toNat

/-- The wire opcode of a byte string read as a frame: byte 1 (R70). -/
def frameOpcode (f : List Byte) : Byte := f.getD 1 0

/-- The answer of the source's `decode(buffer)` (R115). -/
inductive DecodeAnswer where
  | frame (opcode : Byte) (length : Nat) (payload : List (Option Byte))
  | malformed
  | integrityMismatch
  | unknownCommand
  | incomplete
deriving DecidableEq, Repr

/-- The source's `decode(buffer)` as a function of the whole buffer from after the start marker on: "reads the
declared length, and requires exactly that many payload bytes plus the fixed-size trailer to be present" (R73,
R107, R109), with the checks in the order of R233. -/
def decodeBody (c : Cfg) (o : Byte) (rest : List Byte) : DecodeAnswer :=
  if rest.length < c.lenW then .incomplete
  else
    let lenBytes := rest.take c.lenW
    let n := asm c.bo lenBytes
    let body := rest.drop c.lenW
    if c.lenMax < n then .malformed
    else if body.length < n + trlW c then .incomplete
    else
      let p := body.take n
      let t := (body.drop n).take (trlW c)
      if asm c.bo t ≠ (checksum c.alg (covered c o lenBytes p)).toNat then .integrityMismatch
      else
        match lookup c.cat o with
        | none => .unknownCommand
        | some _ => .frame o n (p.map some)

/-- The source's `decode(buffer)` as a function of the whole buffer: it "scans `buffer` for a start marker"
and decodes from there. The streaming form is `decodeBuffer` of Machine/Run.lean (R115). -/
def decodeWhole (c : Cfg) (buf : List Byte) : DecodeAnswer :=
  match buf.dropWhile fun b => b != c.sof with
  | [] => .incomplete
  | [_] => .incomplete
  | _ :: o :: rest => decodeBody c o rest

end Sys2Proof.Machine
end

