-- ==== Sys2Proof/Machine/Flags.lean ====
section
/-! DEFINITION. The numeric codes of the enumerated values and the status flags (spec 10_state.md R21, R28,
R33, R36, R37, R40; 60_exceptions.md R221; 42_catalog.md R173). AFIV has no arithmetic condition codes. -/

namespace Sys2Proof.Machine

open Sys2Proof

/-- The 3-bit encoding of `st` (R21). -/
def SeqState.code : SeqState → BitVec 3
  | .hunt => 0
  | .opc => 1
  | .len => 2
  | .pay => 3
  | .trl => 4
  | .hold => 5

/-- The 3-bit encoding of `res` (R28). -/
def Res.code : Res → BitVec 3
  | .none => 0
  | .frameOk => 1
  | .malformed => 2
  | .unknownCmd => 3
  | .integrityMismatch => 4

/-- The 4-bit event codes (R221). -/
def Event.code : Event → BitVec 4
  | .none => 0
  | .frameOk => 1
  | .malformed => 2
  | .unknownCmd => 3
  | .integrityMismatch => 4
  | .fieldOutOfRange => 5
  | .xOk => 6
  | .illegalOp => 7
  | .notHeld => 8
  | .badSel => 9
  | .overrun => 10

/-- The tag of a transform (R173). -/
def Tag.code : Tag → BitVec 3
  | .rawInt => 0
  | .signedInt => 1
  | .fixed => 2
  | .bitmask => 3
  | .ascii => 4

/-- `INCOMPLETE`: a start marker has been taken and the frame is unfinished (R33, R36). -/
def State.incomplete (s : State) : Bool :=
  match s.st with
  | .hunt => false
  | .opc => true
  | .len => true
  | .pay => true
  | .trl => true
  | .hold => false

/-- `HELD` (R33). -/
def State.held (s : State) : Bool := s.st == .hold

/-- `HUNTING` (R33, R37). -/
def State.hunting (s : State) : Bool := s.st == .hunt

/-- `STATUS` (R33): reserved 15:10, `HUNTING` 9, `RES` 8:6, `OVR` 5, `HELD` 4, `INCOMPLETE` 3, `ST` 2:0. -/
def State.status (s : State) : BitVec 16 :=
  0#6 ++ BitVec.ofBool s.hunting ++ s.res.code ++ BitVec.ofBool s.ovr ++ BitVec.ofBool s.held ++
    BitVec.ofBool s.incomplete ++ s.st.code

end Sys2Proof.Machine
end

