-- ==== Sys2Proof/Machine/Outputs.lean ====
section
/-! DEFINITION. The outputs, pure functions of the state (spec 10_state.md R32 to R37). `STATUS` is in
Machine/Flags.lean. -/

namespace Sys2Proof.Machine

open Sys2Proof

/-- `f_opc`, with a value only while `st = HOLD` (R34). -/
def State.fOpc (s : State) : Option Byte := if s.st = .hold then some s.opc else none

/-- `f_len`, with a value only while `st = HOLD` (R34). -/
def State.fLen (s : State) : Option Nat := if s.st = .hold then some s.len.toNat else none

/-- `f_idx = lookup(opc)`, with a value only while `st = HOLD` (R34). -/
def State.fIdx (s : State) : Option Nat := if s.st = .hold then lookup s.cfg.cat s.opc else none

/-- `pay[i] = pbuf[i]` for `i < len` while `st = HOLD`, otherwise without value (R34). -/
def State.pay (s : State) (i : Nat) : Option Byte :=
  if s.st = .hold ∧ i < s.len.toNat then Memory.read s.pbuf i else none

/-- `pay[0 .. f_len)`, the payload output as a whole (R34). -/
def State.payload (s : State) : List (Option Byte) := (List.range s.len.toNat).map s.pay

/-- `gck = ALG.fin(gacc)`, always valid (R35). -/
def State.gck (s : State) : AlgWord := algFin s.cfg.alg s.gacc

/-- What a host can observe of the receive path (R32 to R34, R239): the result of the last operation, `STATUS`
and the frame outputs. -/
structure Observation where
  out : Result
  status : BitVec 16
  fOpc : Option Byte
  fLen : Option Nat
  fIdx : Option Nat
  payload : List (Option Byte)
deriving DecidableEq, Repr

/-- The observation of a state; outside `HOLD` the payload output has no value at all. -/
def observe (s : State) : Observation :=
  { out := s.out, status := s.status, fOpc := s.fOpc, fLen := s.fLen, fIdx := s.fIdx,
    payload := if s.st = .hold then s.payload else [] }

end Sys2Proof.Machine
end

