-- ==== Sys2Proof/Machine/Run.lean ====
section
/-! DEFINITION. Runs: a finite sequence of operations with the list of results (spec 00_scope.md R3, R17;
70_reset_and_hazards.md R275), and the streaming form of `decode(buffer)` (40_delimiter.md R115). -/

namespace Sys2Proof.Machine

open Sys2Proof

/-- The state after a sequence of operations and the results in order (R275); the first stop ends it. -/
def runOps : List Instr → State → Host.Outcome (State × List Result) Fault Refusal
  | [], s => .next (s, [])
  | i :: is, s =>
    match exec i s with
    | .fault f => .fault f
    | .refused r => .refused r
    | .next t =>
      match runOps is t with
      | .next (u, rs) => .next (u, t.out :: rs)
      | .fault f => .fault f
      | .refused r => .refused r

/-- `decode_buffer(s)` from a state with `st = HUNT` (R115): the bytes are pushed until the first event other
than `EV_NONE`; nothing where the model stops. -/
def decodeBuffer : List Byte → State → Option DecodeAnswer
  | [], _ => some .incomplete
  | b :: bs, s =>
    match exec (.push b) s with
    | .fault _ => none
    | .refused _ => none
    | .next t =>
      match t.out.ev with
      | .none => decodeBuffer bs t
      | .frameOk => some (.frame t.opc t.len.toNat t.payload)
      | .malformed => some .malformed
      | .integrityMismatch => some .integrityMismatch
      | .unknownCmd => some .unknownCommand
      | .fieldOutOfRange => none
      | .xOk => none
      | .illegalOp => none
      | .notHeld => none
      | .badSel => none
      | .overrun => none

end Sys2Proof.Machine
end

