-- ==== Sys2Proof/Safety.lean ====
section
/-! DEFINITION. The invariant of every reachable state (spec 10_state.md R42) and what claims are stated in
terms of. -/

namespace Sys2Proof.Machine

open Sys2Proof

/-- A register of `ALG.W` bits holds a `W`-bit value (R25; log entry 4). -/
def FitsAlg (c : Cfg) (v : AlgWord) : Prop := v &&& mask (algW c.alg) = v

/-- The length-field bytes of the frame in progress that have been taken (R42(c), R81): in `LEN`, where the field
has at most two bytes, the one taken is the low byte of `len` in either order; after it, the whole field. -/
def lenBytesSoFar (s : State) : List Byte :=
  match s.st with
  | .len => if s.cnt.toNat = 0 then [] else [s.len.setWidth 8]
  | .pay => ser s.cfg.bo s.len.toNat s.cfg.lenW
  | .trl => ser s.cfg.bo s.len.toNat s.cfg.lenW
  | .hold => ser s.cfg.bo s.len.toNat s.cfg.lenW
  | .hunt => []
  | .opc => []

/-- How many payload bytes of the frame in progress or held have been taken (R42(c)). -/
def payTaken (s : State) : Nat :=
  match s.st with
  | .pay => s.cnt.toNat
  | .trl => s.len.toNat
  | .hold => s.len.toNat
  | .hunt => 0
  | .opc => 0
  | .len => 0

/-- Where the sequencer is inside the frame (R42(b), R42(d)): `cnt` and `len` in range of `st`. -/
def PositionOk (s : State) : Prop :=
  match s.st with
  | .hunt => s.cnt.toNat = 0
  | .opc => s.cnt.toNat = 0
  | .len => s.cnt.toNat < s.cfg.lenW ∧ s.len.toNat < 2 ^ (8 * s.cnt.toNat)
  | .pay => s.cnt.toNat < s.len.toNat ∧ 1 ≤ s.len.toNat ∧ s.len.toNat ≤ s.cfg.lenMax
  | .trl => s.cnt.toNat < trlW s.cfg ∧ s.len.toNat ≤ s.cfg.lenMax
  | .hold => s.cnt.toNat = 0 ∧ s.len.toNat ≤ s.cfg.lenMax

/-- `acc` is the accumulator over the covered bytes taken so far (R26, R146): over the marker in `OPC`, and over
`covered` of what has been taken from then on, whose payload part is `p`. -/
def AccCovers (s : State) (p : List Byte) : Prop :=
  match s.st with
  | .hunt => True
  | .opc => s.acc = startAcc s.cfg
  | .len => s.acc = absorbAll s.cfg.alg (algInit s.cfg.alg) (covered s.cfg s.opc (lenBytesSoFar s) p)
  | .pay => s.acc = absorbAll s.cfg.alg (algInit s.cfg.alg) (covered s.cfg s.opc (lenBytesSoFar s) p)
  | .trl => s.acc = absorbAll s.cfg.alg (algInit s.cfg.alg) (covered s.cfg s.opc (lenBytesSoFar s) p)
  | .hold => s.acc = absorbAll s.cfg.alg (algInit s.cfg.alg) (covered s.cfg s.opc (lenBytesSoFar s) p)

/-- The invariant of every reachable state (R42), under a well-formed configuration (R16). -/
structure Inv (s : State) : Prop where
  /-- "under a well-formed configuration" (R42, R16). -/
  config : cfgWf s.cfg = true
  /-- The buffer keeps its canonical form (log entry 14). -/
  bufferForm : Memory.wf s.pbuf = true
  /-- The buffer has exactly `LEN_MAX` cells (R30, R51). -/
  bufferRange : ∀ a, s.cfg.lenMax ≤ a → Memory.read s.pbuf a = none
  /-- `trl` is `ALG.W` bits (R25). -/
  trlFits : FitsAlg s.cfg s.trl
  /-- `acc` is a value of `ALG.Acc` (R26). -/
  accFits : AccFits s.cfg.alg s.acc
  /-- `gacc` is a value of `ALG.Acc` (R27). -/
  gaccFits : AccFits s.cfg.alg s.gacc
  /-- R42(b), R42(d). -/
  position : PositionOk s
  /-- R42(c): the payload bytes taken are written, and `acc` is the accumulator over the covered span with
  those very bytes (R26, R42(d)). -/
  payload : ∃ p, Memory.readSpan s.pbuf 0 (payTaken s) = .ok p ∧ AccCovers s p
  /-- R42(d): a held frame is known and its trailer is its checksum. -/
  held : s.st = .hold → (lookup s.cfg.cat s.opc).isSome = true ∧ s.trl = algFin s.cfg.alg s.acc
  /-- R42(f). -/
  resHeld : s.res = .frameOk ↔ s.st = .hold
  /-- `xout` is present only with `EV_X_OK` (R32). -/
  outForm : s.out.xout.isSome = true ↔ s.out.ev = .xOk

/-- A step that goes on. -/
def Completes (s : State) : Prop := ∃ t, step s = .next t

/-- A run of operations that goes on to its end. -/
def RunsTo (is : List Instr) (s t : State) (rs : List Result) : Prop := runOps is s = .next (t, rs)

/-- The states that differ at most in the payload buffer (R42(e)). -/
def SameButBuffer (s t : State) : Prop := { s with pbuf := t.pbuf } = t

/-- The buffers of two states agree on the cells of the frame in progress or held (R42(e)). -/
def SameFrameBytes (s t : State) : Prop :=
  ∀ a, a < payTaken s → Memory.read s.pbuf a = Memory.read t.pbuf a

/-- The instructions that push a received byte: PUSH (R104) and the FRAME rows (log entry 9). -/
def isPush : Instr → Bool
  | .push _ => true
  | .wireQueryStatus => true
  | .wireTestInts => true
  | .wireTestFlags => true
  | .wireTestEmpty => true
  | _ => false

/-- The nine reserved operation codes (R85). -/
def isReserved : Instr → Bool
  | .reserved7 => true
  | .reserved8 => true
  | .reserved9 => true
  | .reservedA => true
  | .reservedB => true
  | .reservedC => true
  | .reservedD => true
  | .reservedE => true
  | .reservedF => true
  | _ => false

/-- The byte an operation gives to the generator (R148). -/
def generatedByte : Instr → Option Byte
  | .gbyte b => some b
  | _ => none

/-- The operations of the receive path other than RST: PUSH, XDEC, FLUSH (R263). -/
def isReceive : Instr → Bool
  | .push _ => true
  | .xdec _ => true
  | .flush => true
  | _ => false

end Sys2Proof.Machine
end

