-- ==== Sys2Proof/Certificates/Slice0/Obligations.lean ====
section
/-! DEFINITION. The statements for the provers: what the numbered rules of spec/ say of the machine. -/

open Sys2Proof Sys2Proof.Machine

/-! ## Operations: effect, frame and completion -/

/-- R101: NOP writes nothing and returns `EV_NONE`, in every state and whatever its argument. -/
def Obligations.NopReturnsNoneAndWritesNothing : Prop :=
  (∀ arg : Byte, decodeCommand (commandWord 0x0 arg) = .nop) ∧
    ∀ s : State, exec .nop s = .next { s with out := ⟨.none, none⟩ }

/-- R102: RST puts every register at its reset value and leaves the buffer; with the buffer unwritten and the
model's own fields apart, that is the reset state of the configuration. -/
def Obligations.RstResetsEveryRegister : Prop :=
  (∀ arg : Byte, decodeCommand (commandWord 0x1 arg) = .rst) ∧
    ∀ s : State,
      exec .rst s = .next { s with
        st := .hunt, cnt := 0, opc := 0, len := 0, trl := 0, acc := algInit s.cfg.alg,
        gacc := algInit s.cfg.alg, res := .none, ovr := false, out := ⟨.none, none⟩ } ∧
      ∀ t, exec .rst s = .next t →
        { t with pbuf := [], port := [] } = State.resetWith s.cfg ∧ t.status = 0x0200

/-- R103: FLUSH drops the frame in progress or held and leaves `opc`, `len`, `trl`, `gacc` and the buffer. -/
def Obligations.FlushDropsTheFrame : Prop :=
  (∀ arg : Byte, decodeCommand (commandWord 0x2 arg) = .flush) ∧
    ∀ s : State,
      exec .flush s = .next { s with
        st := .hunt, cnt := 0, acc := algInit s.cfg.alg, res := .none, ovr := false,
        out := ⟨.none, none⟩ }

/-- R105: PUSH while hunting discards every byte but the start marker, which begins a frame. -/
def Obligations.PushHuntingTakesOnlyTheMarker : Prop :=
  ∀ (s : State) (b : Byte), s.st = .hunt →
    (b ≠ s.cfg.sof → exec (.push b) s = .next { s with out := ⟨.none, none⟩ }) ∧
    (b = s.cfg.sof →
      exec (.push b) s = .next { s with
        acc :=
          if s.cfg.coverSof = true then algAbsorb s.cfg.alg (algInit s.cfg.alg) b
          else algInit s.cfg.alg,
        st := .opc, cnt := 0, out := ⟨.none, none⟩ })

/-- R106: PUSH in `OPC` takes the opcode byte, whatever its value. -/
def Obligations.PushTakesTheOpcodeByte : Prop :=
  ∀ (s : State) (b : Byte), s.st = .opc →
    exec (.push b) s = .next { s with
      opc := b, acc := algAbsorb s.cfg.alg s.acc b, len := 0, st := .len, cnt := 0,
      out := ⟨.none, none⟩ }

/-- R107: PUSH in `LEN` shifts the byte into `len`; the byte that completes the field decides between
`EV_MALFORMED`, an empty payload and a payload. -/
def Obligations.PushTakesALengthByte : Prop :=
  ∀ (s : State) (b : Byte) (len' : BitVec 16), s.st = .len →
    len' = shiftIn s.cfg.bo s.len s.cnt.toNat b →
    (s.cnt.toNat + 1 < s.cfg.lenW →
      exec (.push b) s = .next { s with
        acc := algAbsorb s.cfg.alg s.acc b, len := len', cnt := s.cnt + 1, out := ⟨.none, none⟩ }) ∧
    (s.cfg.lenW ≤ s.cnt.toNat + 1 → s.cfg.lenMax < len'.toNat →
      exec (.push b) s = .next { s with
        acc := algAbsorb s.cfg.alg s.acc b, len := len', cnt := 0, st := .hunt, res := .malformed,
        out := ⟨.malformed, none⟩ }) ∧
    (s.cfg.lenW ≤ s.cnt.toNat + 1 → len'.toNat ≤ s.cfg.lenMax → len' = 0 →
      exec (.push b) s = .next { s with
        acc := algAbsorb s.cfg.alg s.acc b, len := len', cnt := 0, trl := 0, st := .trl,
        out := ⟨.none, none⟩ }) ∧
    (s.cfg.lenW ≤ s.cnt.toNat + 1 → len'.toNat ≤ s.cfg.lenMax → len' ≠ 0 →
      exec (.push b) s = .next { s with
        acc := algAbsorb s.cfg.alg s.acc b, len := len', cnt := 0, st := .pay,
        out := ⟨.none, none⟩ })

/-- R108: PUSH in `PAY` stores the byte at `pbuf[cnt]` and no other cell changes; the last payload byte leads to
the trailer. -/
def Obligations.PushStoresAPayloadByte : Prop :=
  ∀ (s : State) (b : Byte), s.st = .pay → s.cnt.toNat < s.len.toNat → s.len.toNat ≤ s.cfg.lenMax →
    ∃ m : Memory,
      Memory.read m s.cnt.toNat = some b ∧
      (∀ a, a ≠ s.cnt.toNat → Memory.read m a = Memory.read s.pbuf a) ∧
      (s.cnt.toNat + 1 = s.len.toNat →
        exec (.push b) s = .next { s with
          pbuf := m, acc := algAbsorb s.cfg.alg s.acc b, trl := 0, st := .trl, cnt := 0,
          out := ⟨.none, none⟩ }) ∧
      (s.cnt.toNat + 1 ≠ s.len.toNat →
        exec (.push b) s = .next { s with
          pbuf := m, acc := algAbsorb s.cfg.alg s.acc b, cnt := s.cnt + 1, out := ⟨.none, none⟩ })

/-- R109, with R223 to R225: PUSH in `TRL` shifts the byte into `trl` and leaves `acc`; the byte that completes
the trailer gives the verdict, integrity before the catalog. -/
def Obligations.PushTakesATrailerByte : Prop :=
  ∀ (s : State) (b : Byte) (trl' : AlgWord), s.st = .trl →
    trl' = (shiftIn s.cfg.bo (s.trl.setWidth (algW s.cfg.alg)) s.cnt.toNat b).setWidth 32 →
    (s.cnt.toNat + 1 < trlW s.cfg →
      exec (.push b) s = .next { s with trl := trl', cnt := s.cnt + 1, out := ⟨.none, none⟩ }) ∧
    (trlW s.cfg ≤ s.cnt.toNat + 1 → trl' ≠ algFin s.cfg.alg s.acc →
      exec (.push b) s = .next { s with
        trl := trl', cnt := 0, st := .hunt, res := .integrityMismatch,
        out := ⟨.integrityMismatch, none⟩ }) ∧
    (trlW s.cfg ≤ s.cnt.toNat + 1 → trl' = algFin s.cfg.alg s.acc →
      lookup s.cfg.cat s.opc = none →
      exec (.push b) s = .next { s with
        trl := trl', cnt := 0, st := .hunt, res := .unknownCmd, out := ⟨.unknownCmd, none⟩ }) ∧
    (trlW s.cfg ≤ s.cnt.toNat + 1 → trl' = algFin s.cfg.alg s.acc →
      (lookup s.cfg.cat s.opc).isSome = true →
      exec (.push b) s = .next { s with
        trl := trl', cnt := 0, st := .hold, res := .frameOk, out := ⟨.frameOk, none⟩ })

/-- R110, R231: PUSH while a frame is held discards the byte, whatever it is, and sets `ovr`. -/
def Obligations.PushWhileHeldIsOverrun : Prop :=
  ∀ (s : State) (b : Byte), s.st = .hold →
    exec (.push b) s = .next { s with ovr := true, out := ⟨.overrun, none⟩ }

/-- R229, R230, R226: where XDEC is turned away, by which event, in the order written, and that nothing else
happens. -/
def Obligations.XdecTurnedAwayInOrder : Prop :=
  ∀ (s : State) (k : Byte),
    (s.st ≠ .hold → exec (.xdec k) s = .next { s with out := ⟨.notHeld, none⟩ }) ∧
    (s.st = .hold → s.cfg.ncmd ≤ k.toNat →
      exec (.xdec k) s = .next { s with out := ⟨.badSel, none⟩ }) ∧
    (∀ e, s.st = .hold → s.cfg.cat[k.toNat]? = some e → s.len.toNat < need e →
      exec (.xdec k) s = .next { s with out := ⟨.fieldOutOfRange, none⟩ })

/-- R227, R194, R200: XDEC of a schema that the held payload satisfies returns `EV_X_OK` with one record per
descriptor, in order, made of exactly the payload bytes `offset` to `offset + width - 1`; no register changes. -/
def Obligations.XdecDeliversEveryField : Prop :=
  ∀ (s : State) (k : Byte) (e : CatEntry), s.st = .hold → s.cfg.cat[k.toNat]? = some e →
    need e ≤ s.len.toNat → (∀ d ∈ e.fields, 1 ≤ d.width) →
    (∀ i, i < s.len.toNat → (Memory.read s.pbuf i).isSome = true) →
    ∃ recs : List FieldRecord,
      exec (.xdec k) s = .next { s with out := ⟨.xOk, some recs⟩ } ∧
      recs.length = e.fields.length ∧
      ∀ (j : Nat) (d : FieldDesc), e.fields[j]? = some d →
        ∃ r, recs[j]? = some r ∧ r = recordOf s.cfg.bo d r.bytes ∧ r.bytes.length = d.width ∧
          ∀ i, i < d.width → r.bytes[i]? = Memory.read s.pbuf (d.offset + i)

/-- R195 to R200: what each transform makes of the bytes of a field, component by component. That the set of
flags of a `BITMASK` (R198) is held as the ascending list of its indices is the model's choice of log entry 19. -/
def Obligations.TransformsGiveTheirRecords : Prop :=
  ∀ (bo : ByteOrder) (name : String) (offset : Nat) (bs : List Byte), bs ≠ [] →
    recordOf bo ⟨name, offset, bs.length, .rawInt⟩ bs =
      ⟨name, .rawInt, bs, some (asm bo bs), .int (asm bo bs), none, none⟩ ∧
    (∃ v : Int,
      recordOf bo ⟨name, offset, bs.length, .signedInt⟩ bs =
        ⟨name, .signedInt, bs, some (asm bo bs), .int v, none, none⟩ ∧
      (asm bo bs < 2 ^ (8 * bs.length - 1) → v = asm bo bs) ∧
      (2 ^ (8 * bs.length - 1) ≤ asm bo bs → v = (asm bo bs : Int) - 2 ^ (8 * bs.length))) ∧
    (∀ scale : Rat,
      recordOf bo ⟨name, offset, bs.length, .fixed scale⟩ bs =
        ⟨name, .fixed, bs, some (asm bo bs), .rational ((asm bo bs : Rat) * scale), some scale,
          none⟩) ∧
    (∀ labels : List String, ∃ flags : List Nat,
      recordOf bo ⟨name, offset, bs.length, .bitmask labels⟩ bs =
        ⟨name, .bitmask, bs, some (asm bo bs), .flags flags, none, some labels⟩ ∧
      flags.Pairwise (· < ·) ∧
      ∀ i, i ∈ flags ↔ i < 8 * bs.length ∧ (asm bo bs).testBit i = true) ∧
    recordOf bo ⟨name, offset, bs.length, .ascii⟩ bs =
      ⟨name, .ascii, bs, none, .text bs, none, none⟩

/-- R147: GINIT sets the generator accumulator to `ALG.init` and touches nothing else. -/
def Obligations.GinitRestartsTheGenerator : Prop :=
  (∀ arg : Byte, decodeCommand (commandWord 0x5 arg) = .ginit) ∧
    ∀ s : State,
      exec .ginit s = .next { s with gacc := algInit s.cfg.alg, out := ⟨.none, none⟩ }

/-- R148: GBYTE absorbs its byte into the generator accumulator and touches nothing else. -/
def Obligations.GbyteAbsorbsItsByte : Prop :=
  (∀ arg : Byte, decodeCommand (commandWord 0x6 arg) = .gbyte arg) ∧
    ∀ (s : State) (b : Byte),
      exec (.gbyte b) s = .next { s with
        gacc := algAbsorb s.cfg.alg s.gacc b, out := ⟨.none, none⟩ }

/-- R85, R228: every reserved operation code, with any argument, changes no state and returns `EV_ILLEGAL_OP`. -/
def Obligations.ReservedCodesAreIllegalOps : Prop :=
  (∀ w : CmdWord, 7 ≤ (opField w).toNat → isReserved (decodeCommand w) = true) ∧
    ∀ (i : Instr) (s : State),
      i ∈ [Instr.reserved7, Instr.reserved8, Instr.reserved9, Instr.reservedA, Instr.reservedB,
        Instr.reservedC, Instr.reservedD, Instr.reservedE, Instr.reservedF] →
      exec i s = .next { s with out := ⟨.illegalOp, none⟩ }

/-- The model's choice of log entry 9: a FRAME row has the effect of pushing its byte, in every state; where the
sequencer waits for the opcode, the byte is taken as frame byte 1. -/
def Obligations.WireOpcodesAreFrameByteOne : Prop :=
  ∀ (i : Instr) (o : Byte),
    (i, o) ∈ [(Instr.wireQueryStatus, 0x51#8), (Instr.wireTestInts, 0x52#8),
      (Instr.wireTestFlags, 0x53#8), (Instr.wireTestEmpty, 0x54#8)] →
    ∀ s : State,
      exec i s = exec (.push o) s ∧
      (s.st = .opc →
        exec i s = .next { s with
          opc := o, acc := algAbsorb s.cfg.alg s.acc o, len := 0, st := .len, cnt := 0,
          out := ⟨.none, none⟩ })

/-- The model's choice of log entries 14 and 15: on which states a PUSH in `PAY` and an XDEC of a satisfied
schema stop, by which fault, the first descriptor that cannot be read deciding; and, by R42, that no state of the
invariant is such a state. -/
def Obligations.BufferFaultsOutsideReachableStates : Prop :=
  (∀ (s : State) (b : Byte), s.st = .pay → s.cfg.lenMax ≤ s.cnt.toNat →
    exec (.push b) s = .fault .pbufWriteOutOfRange) ∧
  (∀ (s : State) (k : Byte) (e : CatEntry) (before after : List FieldDesc) (d : FieldDesc),
    s.st = .hold → s.cfg.cat[k.toNat]? = some e → need e ≤ s.len.toNat →
    e.fields = before ++ d :: after →
    (∀ x ∈ before, 1 ≤ x.width ∧
      ∀ i, i < x.width → (Memory.read s.pbuf (x.offset + i)).isSome = true) →
    (d.width = 0 → exec (.xdec k) s = .fault .pbufReadOutOfRange) ∧
    ((∃ i, i < d.width ∧ Memory.read s.pbuf (d.offset + i) = none) →
      exec (.xdec k) s = .fault .pbufReadUnwritten)) ∧
  ∀ s : State, Inv s →
    (s.st = .pay → s.cnt.toNat < s.cfg.lenMax) ∧
    ∀ (k : Byte) (e : CatEntry), s.st = .hold → s.cfg.cat[k.toNat]? = some e →
      need e ≤ s.len.toNat → ∀ d ∈ e.fields, 1 ≤ d.width ∧
        ∀ i, i < d.width → (Memory.read s.pbuf (d.offset + i)).isSome = true

/-! ## Decoding, encoding and the step -/

/-- R83, R180: words written out bit by bit from the encoding decode to what they stand for. That 16 bits are taken
as a command word, held in their bits 11:0, is the model's choice of log entry 11, and that 8 bits are taken as the
byte of a FRAME row that of log entries 9 and 11. -/
def Obligations.WordsOfTheTableDecode : Prop :=
  decodeTableWord 16 0b000000000000 = some .nop ∧
  decodeTableWord 16 0b000010101011 = some .nop ∧
  decodeTableWord 16 0b000100000000 = some .rst ∧
  decodeTableWord 16 0b001000000000 = some .flush ∧
  decodeTableWord 16 0b001110100101 = some (.push 0xA5) ∧
  decodeTableWord 16 0b010000000100 = some (.xdec 0x04) ∧
  decodeTableWord 16 0b010100000000 = some .ginit ∧
  decodeTableWord 16 0b011001010001 = some (.gbyte 0x51) ∧
  decodeTableWord 16 0b011111111111 = some .reserved7 ∧
  decodeTableWord 16 0b111100000000 = some .reservedF ∧
  decodeTableWord 8 0b01010001 = some .wireQueryStatus ∧
  decodeTableWord 8 0b01010100 = some .wireTestEmpty

/-- R88: every 12-bit value is a word of exactly one row of the operation map, and decodes to that row. -/
def Obligations.EveryCommandWordHasOneRow : Prop :=
  ∀ w : CmdWord, ∃ r ∈ opcodeTable,
    r.covers (.command w) = true ∧ (decodeCommand w).mnemonic = r.mnemonic ∧
    ∀ r' ∈ opcodeTable, r'.covers (.command w) = true → r' = r

/-- Decoding the canonical encoding of any instruction gives it back, as a host input and as the bits of the
table; encoding what a command word decodes to gives the word back, its argument cleared exactly where the
operation ignores it. R83, R84 and R87 say so of the seven operations; the model's choices in it are the argument
0 of a reserved code (log entry 20), the 16 bits a command word is held in (log entry 11) and the FRAME rows as
inputs of one byte (log entries 9 and 10). -/
def Obligations.DecodeAndEncodeAgree : Prop :=
  (∀ i : Instr, decodeInput (encode i) = some i ∧
    ∃ nbits w, wordOfInput (encode i) = some (nbits, w) ∧ decodeTableWord nbits w = some i) ∧
  (∀ w : CmdWord,
    ((opField w = 0x3 ∨ opField w = 0x4 ∨ opField w = 0x6) →
      encode (decodeCommand w) = .command w) ∧
    (¬(opField w = 0x3 ∨ opField w = 0x4 ∨ opField w = 0x6) →
      encode (decodeCommand w) = .command (commandWord (opField w) 0)))

/-- A step runs the decoded instruction: in a well-formed configuration, when the host's next input decodes to
an instruction, the step is that instruction's meaning in the state whose port no longer holds the input. That the
inputs stand in a list, of which a step takes the first, that a raw wire byte is one, and that the configuration is
checked first is the model's choice of log entries 6, 9, 10 and 12; R17 says that the host applies one operation at
a time. -/
def Obligations.StepRunsTheDecodedInstruction : Prop :=
  ∀ (s : State) (w : HostInput) (rest : List HostInput) (i : Instr),
    cfgWf s.cfg = true → s.port = w :: rest → decodeInput w = some i →
    step s = exec i { s with port := rest }

/-- The model's choice of log entries 6 and 11: a command word placed at the port is what the next step runs. -/
def Obligations.PlacedWordRunsNext : Prop :=
  ∀ (s : State) (w : CmdWord), cfgWf s.cfg = true →
    step (s.withFetchWord 16 w.toNat) = exec (decodeCommand w) { s with port := s.port.tail }

/-- The model's choice of log entry 7, from R17's "nothing happens between operations": with nothing applied, the
state stays as it is. -/
def Obligations.NothingHappensBetweenOperations : Prop :=
  ∀ s : State, cfgWf s.cfg = true → s.port = [] → step s = .next s

/-- R260, R261, with log entry 8: the hardware reset input puts every register at its reset value, whatever the
state, and leaves every buffer cell unwritten. -/
def Obligations.HardwareResetGivesTheResetState : Prop :=
  ∀ (s : State) (rest : List HostInput), cfgWf s.cfg = true →
    s.port = .hardwareReset :: rest →
    step s = .next { State.resetWith s.cfg with port := rest }

/-- R16, with log entries 12 and 13: what a well-formed configuration is, the algorithm's width and parameters
among it, and that a step in any other is refused by name. -/
def Obligations.IllFormedConfigurationIsRefused : Prop :=
  (∀ c : Cfg, cfgWf c = true ↔
    (c.lenW = 1 ∨ c.lenW = 2) ∧ c.lenMax < 2 ^ (8 * c.lenW) ∧
      (algW c.alg = 8 ∨ algW c.alg = 16 ∨ algW c.alg = 32) ∧
      (∀ w poly init refin refout xorout, c.alg = .crc w poly init refin refout xorout →
        poly.toNat < 2 ^ w ∧ init.toNat < 2 ^ w ∧ xorout.toNat < 2 ^ w) ∧
      (∀ w init f, c.alg = .sum w init f → init.toNat < 2 ^ w) ∧
      (1 ≤ c.fwMax ∧ c.fwMax ≤ 255 ∧ c.nfMax ≤ 255) ∧ c.ncmd ≤ 256 ∧
      (c.cat.map CatEntry.opcode).Nodup ∧
      ∀ e ∈ c.cat, e.fields.length ≤ c.nfMax ∧ (e.fields.map FieldDesc.name).Nodup ∧
        ∀ d ∈ e.fields, 1 ≤ d.width ∧ d.width ≤ c.fwMax ∧
          (∀ q, d.transform = .fixed q → 0 < q) ∧
          (∀ ls, d.transform = .bitmask ls → ls.length ≤ 8 * d.width)) ∧
  ∀ s : State, cfgWf s.cfg = false → step s = .refused .illFormedConfig

/-! ## Reset and outputs -/

/-- R261: the reset state of every configuration: registers, `STATUS = 0x0200`, `gck = ALG.fin(ALG.init)`
(`0xFFFF` under REF-A, `0x00` under REF-B), no frame output, no buffer cell written. -/
def Obligations.ResetStateAsTabulated : Prop :=
  (∀ c : Cfg,
    let s := State.resetWith c
    s.cfg = c ∧ s.st = .hunt ∧ s.cnt = 0 ∧ s.opc = 0 ∧ s.len = 0 ∧ s.trl = 0 ∧
    s.acc = algInit c.alg ∧ s.gacc = algInit c.alg ∧ s.res = .none ∧ s.ovr = false ∧
    s.status = 0x0200 ∧ s.gck = algFin c.alg (algInit c.alg) ∧
    s.fOpc = none ∧ s.fLen = none ∧ s.fIdx = none ∧ (∀ i, s.pay i = none) ∧
    ∀ a, Memory.read s.pbuf a = none) ∧
  (State.resetWith cfgRefA).gck = 0xFFFF ∧ (State.resetWith cfgRefB).gck = 0x00

/-- R33, R36, R37: the fields of `STATUS`, bit by bit, and the numbers of `st` and `res` in them (R21, R28). -/
def Obligations.StatusFieldsInPlace : Prop :=
  [SeqState.hunt, .opc, .len, .pay, .trl, .hold].map SeqState.code = [0, 1, 2, 3, 4, 5] ∧
  [Res.none, .frameOk, .malformed, .unknownCmd, .integrityMismatch].map Res.code = [0, 1, 2, 3, 4] ∧
  ∀ s : State,
    s.status.extractLsb' 0 3 = s.st.code ∧
    (s.status.getLsbD 3 = true ↔ s.st = .opc ∨ s.st = .len ∨ s.st = .pay ∨ s.st = .trl) ∧
    (s.status.getLsbD 4 = true ↔ s.st = .hold) ∧
    s.status.getLsbD 5 = s.ovr ∧
    s.status.extractLsb' 6 3 = s.res.code ∧
    (s.status.getLsbD 9 = true ↔ s.st = .hunt) ∧
    s.status.extractLsb' 10 6 = 0

/-- R34: the frame outputs have a value exactly while a frame is held; in every state of the invariant the index
exists and `pay[i]` has a value exactly below `len`. -/
def Obligations.FrameOutputsOnlyWhileHeld : Prop :=
  ∀ s : State,
    (s.st ≠ .hold → s.fOpc = none ∧ s.fLen = none ∧ s.fIdx = none ∧ ∀ i, s.pay i = none) ∧
    (Inv s → s.st = .hold →
      s.fOpc = some s.opc ∧ s.fLen = some s.len.toNat ∧ s.fIdx = lookup s.cfg.cat s.opc ∧
      (∃ k, s.fIdx = some k ∧ ∃ e, s.cfg.cat[k]? = some e ∧ e.opcode = s.opc) ∧
      ∀ i, (s.pay i = Memory.read s.pbuf i ∨ s.len.toNat ≤ i) ∧
        ((s.pay i).isSome = true ↔ i < s.len.toNat))

/-! ## Rules over all operations -/

/-- R100: the transition table of FDL, with the event of each row: PUSH by the state it finds, FLUSH and RST from
any state, and that no other operation moves the sequencer. -/
def Obligations.SequencerMovesByTheTable : Prop :=
  ∀ (i : Instr) (s t : State), exec i s = .next t →
    (∀ b, i = .push b →
      (s.st = .hunt → b ≠ s.cfg.sof → t.st = .hunt ∧ t.out.ev = .none) ∧
      (s.st = .hunt → b = s.cfg.sof → t.st = .opc ∧ t.out.ev = .none) ∧
      (s.st = .opc → t.st = .len ∧ t.out.ev = .none) ∧
      (s.st = .len → s.cnt.toNat + 1 < s.cfg.lenW → t.st = .len ∧ t.out.ev = .none) ∧
      (s.st = .len → s.cfg.lenW ≤ s.cnt.toNat + 1 → s.cfg.lenMax < t.len.toNat →
        t.st = .hunt ∧ t.out.ev = .malformed) ∧
      (s.st = .len → s.cfg.lenW ≤ s.cnt.toNat + 1 → t.len.toNat = 0 →
        t.st = .trl ∧ t.out.ev = .none) ∧
      (s.st = .len → s.cfg.lenW ≤ s.cnt.toNat + 1 → 1 ≤ t.len.toNat →
        t.len.toNat ≤ s.cfg.lenMax → t.st = .pay ∧ t.out.ev = .none) ∧
      (s.st = .pay → s.cnt.toNat + 1 < s.len.toNat → t.st = .pay ∧ t.out.ev = .none) ∧
      (s.st = .pay → s.cnt.toNat + 1 = s.len.toNat → t.st = .trl ∧ t.out.ev = .none) ∧
      (s.st = .trl → s.cnt.toNat + 1 < trlW s.cfg → t.st = .trl ∧ t.out.ev = .none) ∧
      (s.st = .trl → trlW s.cfg ≤ s.cnt.toNat + 1 → t.trl ≠ algFin s.cfg.alg s.acc →
        t.st = .hunt ∧ t.out.ev = .integrityMismatch) ∧
      (s.st = .trl → trlW s.cfg ≤ s.cnt.toNat + 1 → t.trl = algFin s.cfg.alg s.acc →
        lookup s.cfg.cat s.opc = none → t.st = .hunt ∧ t.out.ev = .unknownCmd) ∧
      (s.st = .trl → trlW s.cfg ≤ s.cnt.toNat + 1 → t.trl = algFin s.cfg.alg s.acc →
        (lookup s.cfg.cat s.opc).isSome = true → t.st = .hold ∧ t.out.ev = .frameOk) ∧
      (s.st = .hold → t.st = .hold ∧ t.out.ev = .overrun)) ∧
    (i = .flush ∨ i = .rst → t.st = .hunt ∧ t.cnt = 0 ∧ t.out.ev = .none) ∧
    (isPush i = false → i ≠ .flush → i ≠ .rst → t.st = s.st ∧ t.cnt = s.cnt)

/-- R28, R29: `res` records the four frame-ending events and nothing else, `ovr` the overrun; FLUSH and RST clear
both; no other operation writes them. -/
def Obligations.StickyFlagsFollowTheirEvents : Prop :=
  ∀ (i : Instr) (s t : State), exec i s = .next t →
    (t.out.ev = .frameOk → t.res = .frameOk) ∧
    (t.out.ev = .malformed → t.res = .malformed) ∧
    (t.out.ev = .unknownCmd → t.res = .unknownCmd) ∧
    (t.out.ev = .integrityMismatch → t.res = .integrityMismatch) ∧
    (i = .flush ∨ i = .rst → t.res = .none ∧ t.ovr = false) ∧
    (i ≠ .flush → i ≠ .rst → t.out.ev ≠ .frameOk → t.out.ev ≠ .malformed →
      t.out.ev ≠ .unknownCmd → t.out.ev ≠ .integrityMismatch → t.res = s.res) ∧
    (t.out.ev = .overrun → t.ovr = true) ∧
    (i ≠ .flush → i ≠ .rst → t.out.ev ≠ .overrun → t.ovr = s.ovr)

/-- R64, R27: the receive path and the generator are disjoint, and only RST writes both. -/
def Obligations.ReceiveAndGeneratorAreDisjoint : Prop :=
  ∀ (i : Instr) (s t : State), exec i s = .next t →
    (i = .ginit ∨ (∃ b, i = .gbyte b) → t = { s with gacc := t.gacc, out := t.out }) ∧
    (i ≠ .ginit → (∀ b, i ≠ .gbyte b) → i ≠ .rst →
      t.gacc = s.gacc ∧
      ∀ g : Nat, exec i { s with gacc := g } = .next { t with gacc := g }) ∧
    (i = .rst → t.gacc = algInit s.cfg.alg ∧ t.acc = algInit s.cfg.alg ∧ t.st = .hunt)

/-- R51, R30: the buffer is written only by a pushed byte in `PAY`, at index `cnt`; every other cell, and every
cell under every other operation, keeps its byte. -/
def Obligations.BufferWrittenOnlyByPayloadBytes : Prop :=
  ∀ (i : Instr) (s t : State), exec i s = .next t →
    (¬(isPush i = true ∧ s.st = .pay) → t.pbuf = s.pbuf) ∧
    ∀ a, a ≠ s.cnt.toNat → Memory.read t.pbuf a = Memory.read s.pbuf a

/-- R221: the event codes, which operation raises which event, and that `xout` is present exactly with
`EV_X_OK`. -/
def Obligations.EventsComeFromTheirOperations : Prop :=
  [Event.none, .frameOk, .malformed, .unknownCmd, .integrityMismatch, .fieldOutOfRange, .xOk, .illegalOp,
    .notHeld, .badSel, .overrun].map Event.code = [0, 1, 2, 3, 4, 5, 6, 7, 8, 9, 10] ∧
  ∀ (i : Instr) (s t : State), exec i s = .next t →
    (t.out.ev = .frameOk ∨ t.out.ev = .unknownCmd ∨ t.out.ev = .integrityMismatch →
      isPush i = true ∧ s.st = .trl ∧ trlW s.cfg ≤ s.cnt.toNat + 1) ∧
    (t.out.ev = .malformed → isPush i = true ∧ s.st = .len ∧ s.cfg.lenW ≤ s.cnt.toNat + 1) ∧
    (t.out.ev = .overrun → isPush i = true ∧ s.st = .hold) ∧
    (t.out.ev = .fieldOutOfRange ∨ t.out.ev = .xOk ∨ t.out.ev = .badSel →
      (∃ k, i = .xdec k) ∧ s.st = .hold) ∧
    (t.out.ev = .notHeld → (∃ k, i = .xdec k) ∧ s.st ≠ .hold) ∧
    (t.out.ev = .illegalOp ↔ isReserved i = true) ∧
    (t.out.xout.isSome = true ↔ t.out.ev = .xOk)

/-- 00_scope.md section 4 and R20: `Cfg` is constant, so no step changes the field that holds it (log entry 1);
of the catalog R60 says the same. -/
def Obligations.ConfigurationIsConstant : Prop :=
  ∀ s t : State, step s = .next t → t.cfg = s.cfg

/-- R201, R202: XDEC changes no register, gives the same answer when repeated, also after other XDECs (whose
results are all they leave behind), and does not look at the held frame's opcode. -/
def Obligations.XdecIsPureAndRepeatable : Prop :=
  ∀ (k : Byte) (s t : State), exec (.xdec k) s = .next t →
    t = { s with out := t.out } ∧ exec (.xdec k) t = .next t ∧
    (∀ u : Result, exec (.xdec k) { s with out := u } = .next t) ∧
    ∀ o : Byte, exec (.xdec k) { s with opc := o } = .next { t with opc := o }

/-! ## Arithmetic: byte order, the shifter, the checksum, the catalog -/

/-- R55: `asm` is the weighted sum of its bytes in either order, `ser` is its inverse both ways, and for one byte
the orders agree. That the sum of no bytes and the bytes of a `v` of `2^(8n)` or more, which R55 leaves out, are the
same expressions is the model's choice of log entry 23. -/
def Obligations.AsmAndSerAreInverse : Prop :=
  (∀ s : List Byte,
    asm .le s = ∑ i ∈ Finset.range s.length, (s.getD i 0).toNat * 2 ^ (8 * i) ∧
    asm .be s = ∑ i ∈ Finset.range s.length, (s.getD i 0).toNat * 2 ^ (8 * (s.length - 1 - i))) ∧
  (∀ (bo : ByteOrder) (v n i : Nat), i < n →
    (ser bo v n)[i]? = some (BitVec.ofNat 8
      (v / 2 ^ (8 * (match bo with | .le => i | .be => n - 1 - i))))) ∧
  (∀ (bo : ByteOrder) (v n : Nat), v < 2 ^ (8 * n) → asm bo (ser bo v n) = v) ∧
  (∀ (bo : ByteOrder) (s : List Byte), ser bo (asm bo s) s.length = s) ∧
  ∀ b : Byte, asm .le [b] = b.toNat ∧ asm .be [b] = b.toNat

/-- R111, R81: from a zero register, shifting in the bytes of a string that fits gives `asm_BO` of it (of no bytes,
0: log entry 23). -/
def Obligations.ShifterAssemblesBytes : Prop :=
  ∀ (bo : ByteOrder) (n : Nat) (s : List Byte), 8 * s.length ≤ n →
    (s.zipIdx.foldl (fun (r : BitVec n) (p : Byte × Nat) => shiftIn bo r p.2 p.1) 0).toNat =
      asm bo s

/-- R140, R142, R143: under a well-formed algorithm every accumulator is a value of `ALG.Acc`, for the two families
a `W`-bit integer, and every checksum is a `W`-bit value. For an open algorithm nothing is known of its accumulators
(log entry 3). -/
def Obligations.ChecksumsFitTheirWidth : Prop :=
  ∀ alg : Alg, algWf alg = true →
    AccFits alg (algInit alg) ∧
    (∀ a b, AccFits alg (algAbsorb alg a b)) ∧
    ∀ a, AccFits alg a → (algFin alg a).toNat < 2 ^ algW alg

/-- R144: one table look-up computes the same absorb step as the eight rounds of the loop. -/
def Obligations.TableDrivenCrcIsTheLoop : Prop :=
  ∀ (w : Nat) (poly a : AlgWord) (b : Byte), w = 8 ∨ w = 16 ∨ w = 32 →
    crcTableAbsorb w poly a b = crcAbsorb w poly false a b

/-- R152, first half: the additive family detects every change of one byte, with any parameters. -/
def Obligations.SumDetectsAnyChangedByte : Prop :=
  ∀ (w : Nat) (init : AlgWord) (f : SumFin), algWf (.sum w init f) = true →
    AlgDetectsByte (.sum w init f)

/-- R152, second half: the CRC family detects every change of one byte when `POLY` is odd, whatever the
reflections, `INIT` and `XOROUT`. -/
def Obligations.OddCrcDetectsAnyChangedByte : Prop :=
  ∀ (w : Nat) (poly init xorout : AlgWord) (refin refout : Bool),
    algWf (.crc w poly init refin refout xorout) = true → poly.getLsbD 0 = true →
    AlgDetectsByte (.crc w poly init refin refout xorout)

/-- R155: the check values over "123456789". -/
def Obligations.CheckValuesOfTheFamilies : Prop :=
  let nine : List Byte := [0x31, 0x32, 0x33, 0x34, 0x35, 0x36, 0x37, 0x38, 0x39]
  checksum algRefA nine = 0x29B1 ∧
  checksum (.crc 16 0x1021 0x0000 false false 0x0000) nine = 0x31C3 ∧
  checksum (.crc 16 0x8005 0x0000 true true 0x0000) nine = 0xBB3D ∧
  checksum (.crc 8 0x07 0x00 false false 0x00) nine = 0xF4 ∧
  checksum (.crc 32 0x04C11DB7 0xFFFFFFFF true true 0xFFFFFFFF) nine = 0xCBF43926 ∧
  checksum algRefB nine = 0xDD ∧
  checksum (.sum 8 0x00 .inv) nine = 0x22 ∧
  checksum (.sum 8 0x00 .neg) nine = 0x23 ∧
  checksum (.sum 16 0x0000 .id) nine = 0x01DD ∧
  checksum algRefA [] = 0xFFFF ∧ checksum algRefA [0x00] = 0xE1F0 ∧
  checksum algRefA [0xA5] = 0x04BF ∧ checksum algRefA [0xA5, 0x51] = 0xB550 ∧
  checksum algRefA [0xA5, 0x51, 0x00] = 0xA77E

/-- R174, R175: in a well-formed catalog, `lookup` gives the one index whose entry has the opcode, and nothing
exactly where no entry has it. -/
def Obligations.LookupFindsTheOneEntry : Prop :=
  ∀ (fw nf : Nat) (cat : Catalog) (o : Byte), catWf fw nf cat = true →
    (∀ k, lookup cat o = some k ↔ ∃ e, cat[k]? = some e ∧ e.opcode = o) ∧
    (lookup cat o = none ↔ ∀ e ∈ cat, e.opcode ≠ o)

/-- R176, R192: `need` is the largest end of a field, and a payload is shorter than it exactly when some field
ends beyond the payload. -/
def Obligations.NeedIsTheLargestFieldEnd : Prop :=
  ∀ e : CatEntry,
    (∀ d ∈ e.fields, d.offset + d.width ≤ need e) ∧
    (e.fields ≠ [] → ∃ d ∈ e.fields, d.offset + d.width = need e) ∧
    (e.fields = [] → need e = 0) ∧
    ∀ len : Nat, len < need e ↔ ∃ d ∈ e.fields, len < d.offset + d.width

/-! ## The invariant -/

/-- R42: the invariant holds in the reset state, of every well-formed configuration and of the model's. -/
def Obligations.InvariantHoldsAtReset : Prop :=
  Inv State.reset ∧ ∀ c : Cfg, cfgWf c = true → Inv (State.resetWith c)

/-- R42: every step keeps the invariant, from every state that has it. -/
def Obligations.EveryStepKeepsTheInvariant : Prop :=
  ∀ s t : State, Inv s → step s = .next t → Inv t

/-- R239, R275: every operation is total: in every state of the invariant, every instruction and every step go on
to a next state, with no fault and no refusal. -/
def Obligations.EveryOperationIsTotal : Prop :=
  ∀ s : State, Inv s → (∀ i : Instr, ∃ t, exec i s = .next t) ∧ Completes s

/-! ## Frames, runs and equivalences -/

/-- R79: what `encode_frame` builds is a valid frame, with the opcode and payload it was given. -/
def Obligations.EncodedFramesAreValid : Prop :=
  ∀ (c : Cfg) (o : Byte) (p : List Byte), cfgWf c = true → p.length ≤ c.lenMax →
    frameWf c (encodeFrame c o p) = true ∧
    frameOpcode (encodeFrame c o p) = o ∧ frameLen c (encodeFrame c o p) = p.length ∧
    framePayload c (encodeFrame c o p) = p ∧
    (encodeFrame c o p).length = 2 + c.lenW + p.length + trlW c

/-- R116: pushing a valid frame byte by byte from `HUNT` returns `EV_NONE` for every byte but the last; the last
returns `EV_FRAME_OK` and the frame is held, or `EV_UNKNOWN_CMD` where the catalog has no such opcode. -/
def Obligations.ValidFrameGivesOneVerdict : Prop :=
  ∀ (s : State) (f : List Byte), cfgWf s.cfg = true → s.st = .hunt → frameWf s.cfg f = true →
    ((lookup s.cfg.cat (frameOpcode f)).isSome = true →
      ∃ t, RunsTo (pushs f) s t (List.replicate (f.length - 1) ⟨.none, none⟩ ++ [⟨.frameOk, none⟩]) ∧
        t.st = .hold ∧ t.fOpc = some (frameOpcode f) ∧ t.fLen = some (frameLen s.cfg f) ∧
        t.payload = (framePayload s.cfg f).map some) ∧
    (lookup s.cfg.cat (frameOpcode f) = none →
      ∃ t, RunsTo (pushs f) s t
          (List.replicate (f.length - 1) ⟨.none, none⟩ ++ [⟨.unknownCmd, none⟩]) ∧
        t.st = .hunt)

/-- R117: for every catalog entry and payload that fits, pushing the encoded frame from `HUNT` holds exactly that
opcode, length and payload. -/
def Obligations.EncodedFrameRoundTrip : Prop :=
  ∀ (s : State) (k : Nat) (e : CatEntry) (p : List Byte), cfgWf s.cfg = true → s.st = .hunt →
    s.cfg.cat[k]? = some e → p.length ≤ s.cfg.lenMax →
    ∃ t rs, RunsTo (pushs (encodeFrame s.cfg e.opcode p)) s t rs ∧ t.st = .hold ∧
      t.fOpc = some e.opcode ∧ t.fIdx = some k ∧ t.fLen = some p.length ∧ t.payload = p.map some

/-- R207: pushing an encoded frame and then XDEC of its entry returns the records of exactly the payload's bytes;
a field that was built by `ser` has the value it was built from. -/
def Obligations.FieldRoundTrip : Prop :=
  ∀ (s : State) (k : Byte) (e : CatEntry) (p : List Byte), cfgWf s.cfg = true → s.st = .hunt →
    s.cfg.cat[k.toNat]? = some e → need e ≤ p.length → p.length ≤ s.cfg.lenMax →
    (∃ t rs,
      RunsTo (pushs (encodeFrame s.cfg e.opcode p) ++ [.xdec k]) s t
        (rs ++ [⟨.xOk, some (e.fields.map fun d =>
          recordOf s.cfg.bo d ((p.drop d.offset).take d.width))⟩])) ∧
    ∀ (d : FieldDesc) (v : Nat), d ∈ e.fields → d.transform ≠ .ascii → v < 2 ^ (8 * d.width) →
      (p.drop d.offset).take d.width = ser s.cfg.bo v d.width →
      (recordOf s.cfg.bo d ((p.drop d.offset).take d.width)).raw = some v

/-- R118: bytes without a start marker before a string of bytes change neither its final state nor its results,
and each of them returns `EV_NONE`. -/
def Obligations.LeadingGarbageIsIgnored : Prop :=
  ∀ (s : State) (g f : List Byte), s.st = .hunt → (∀ b ∈ g, b ≠ s.cfg.sof) → f ≠ [] →
    ∀ (t : State) (rs : List Result), RunsTo (pushs f) s t rs ↔
      RunsTo (pushs (g ++ f)) s t (List.replicate g.length ⟨.none, none⟩ ++ rs)

/-- R115: the streaming delimiter answers, byte by byte from `HUNT`, exactly what a decoder of the whole buffer
answers. -/
def Obligations.StreamingDecodesTheBuffer : Prop :=
  ∀ (s : State) (buf : List Byte), cfgWf s.cfg = true → s.st = .hunt →
    decodeBuffer buf s = some (decodeWhole s.cfg buf)

/-- R145, R151, R153: a valid frame with one trailer byte changed is rejected at its last byte with
`EV_INTEGRITY_MISMATCH`, under every algorithm; with one byte of the opcode or the payload changed it is where the
algorithm detects a changed byte. Of a changed start marker or length byte R153 says that it need not be. -/
def Obligations.ChangedOpcodePayloadOrTrailerByteIsRejected : Prop :=
  ∀ (s : State) (f : List Byte) (i : Nat) (b : Byte), cfgWf s.cfg = true → s.st = .hunt →
    frameWf s.cfg f = true → i < f.length → f[i]? ≠ some b →
    ((AlgDetectsByte s.cfg.alg ∧
        (i = 1 ∨ (2 + s.cfg.lenW ≤ i ∧ i < 2 + s.cfg.lenW + frameLen s.cfg f))) ∨
      f.length - trlW s.cfg ≤ i) →
    ∃ t, RunsTo (pushs (f.set i b)) s t
        (List.replicate (f.length - 1) ⟨.none, none⟩ ++ [⟨.integrityMismatch, none⟩]) ∧
      t.st = .hunt ∧ t.res = .integrityMismatch

/-- R149: after GINIT and any operations without RST or GINIT, `gck` is the checksum of the bytes given by GBYTE
among them, whatever the others are. -/
def Obligations.GeneratorComputesTheChecksum : Prop :=
  ∀ (is : List Instr) (s t : State) (rs : List Result),
    (∀ i ∈ is, i ≠ .rst ∧ i ≠ .ginit) → RunsTo (.ginit :: is) s t rs →
    t.gck = checksum s.cfg.alg (is.filterMap generatedByte)

/-- R263: FLUSH leaves `opc`, `len`, `trl`, `gacc` and the buffer; for everything the receive path shows a host,
FLUSH and RST are nevertheless equivalent: `STATUS = 0x0200`, no frame output, and the same results and
observations after any later PUSH, XDEC and FLUSH. -/
def Obligations.FlushAndRstLookAlike : Prop :=
  ∀ (is : List Instr) (s f r : State), (∀ i ∈ is, isReceive i = true) →
    exec .flush s = .next f → exec .rst s = .next r →
    (f.opc = s.opc ∧ f.len = s.len ∧ f.trl = s.trl ∧ f.gacc = s.gacc ∧ f.pbuf = s.pbuf) ∧
    (f.status = 0x0200 ∧ f.fOpc = none ∧ f.fLen = none ∧ f.fIdx = none ∧ ∀ i, f.pay i = none) ∧
    observe f = observe r ∧
    ∀ (t : State) (rs : List Result), RunsTo is f t rs →
      ∃ u, RunsTo is r u rs ∧ observe t = observe u

/-- R42(e), R30: no output ever depends on an unwritten byte of the buffer or on one left by an earlier frame:
states that differ only in such cells give the same results, the same `STATUS` and frame outputs and the same
`gck` under any operations. -/
def Obligations.StaleBytesAreUnobservable : Prop :=
  ∀ (is : List Instr) (s s' t : State) (rs : List Result), Inv s → SameButBuffer s s' →
    SameFrameBytes s s' → RunsTo is s t rs →
    ∃ t', RunsTo is s' t' rs ∧ observe t = observe t' ∧ t.gck = t'.gck

/-- R204: a payload longer than the schema needs is accepted, and XDEC reads no byte at or beyond `need` and none
in a gap between fields: held frames that agree on the bytes of the fields give the same result. -/
def Obligations.BytesBeyondNeedAreIgnored : Prop :=
  ∀ (s s' t : State) (k : Byte) (e : CatEntry), s.st = .hold → s'.st = .hold → s'.cfg = s.cfg →
    s.cfg.cat[k.toNat]? = some e → need e ≤ s.len.toNat → need e ≤ s'.len.toNat →
    (∀ d ∈ e.fields, ∀ i, i < d.width →
      Memory.read s'.pbuf (d.offset + i) = Memory.read s.pbuf (d.offset + i)) →
    exec (.xdec k) s = .next t →
    t.out.ev = .xOk ∧ exec (.xdec k) s' = .next { s' with out := t.out }
end

