-- ==== Sys2Proof/Laws/Bytes.lean ====
section
/-! SUPPORT. What the shifter, the mask, the reflection and one round of a CRC do, bit by bit or as numbers. -/

namespace Sys2Proof.Machine

open Sys2Proof

theorem asmLE_append (s t : List Byte) : asmLE (s ++ t) = asmLE s + 2 ^ (8 * s.length) * asmLE t := by
  induction s with
  | nil => simp [asmLE]
  | cons b s ih =>
    simp only [List.cons_append, asmLE, ih, List.length_cons, Nat.mul_succ, pow_add]
    norm_num
    ring

/-- `asm` of `n` bytes is an `8n`-bit number, in either order. -/
theorem asm_lt (bo : ByteOrder) (s : List Byte) : asm bo s < 2 ^ (8 * s.length) := by
  have hle : ∀ u : List Byte, asmLE u < 2 ^ (8 * u.length) := by
    intro u
    induction u with
    | nil => simp [asmLE]
    | cons b u ih =>
      have := b.isLt
      rw [asmLE, List.length_cons, Nat.mul_succ, pow_add]
      norm_num
      omega
  cases bo
  · exact hle s
  · simpa [asm, asmBE] using hle s.reverse

@[simp] theorem ser_length (bo : ByteOrder) (v n : Nat) : (ser bo v n).length = n := by
  cases bo <;> simp [ser, serLE, serBE]

/-- Shifting one more byte into a register that holds `asm` of the bytes so far gives `asm` of them all. -/
theorem shiftIn_asm (bo : ByteOrder) (n : Nat) (s : List Byte) (b : Byte) (reg : BitVec n)
    (h : 8 * (s.length + 1) ≤ n) (hr : reg.toNat = asm bo s) :
    (shiftIn bo reg s.length b).toNat = asm bo (s ++ [b]) := by
  have hlt := asm_lt bo s
  have hb := b.isLt
  have hbn : b.toNat < 2 ^ n :=
    lt_of_lt_of_le hb (Nat.pow_le_pow_right (by norm_num) (by omega : 8 ≤ n))
  cases bo
  · simp only [shiftIn, asm] at *
    rw [asmLE_append, BitVec.toNat_or, BitVec.toNat_shiftLeft, BitVec.toNat_setWidth, hr,
      Nat.mod_eq_of_lt hbn, Nat.shiftLeft_eq]
    have : b.toNat * 2 ^ (8 * s.length) < 2 ^ n := by
      have h1 : b.toNat * 2 ^ (8 * s.length) < 2 ^ 8 * 2 ^ (8 * s.length) :=
        Nat.mul_lt_mul_of_pos_right hb (by positivity)
      rw [← pow_add] at h1
      exact lt_of_lt_of_le h1 (Nat.pow_le_pow_right (by norm_num) (by omega))
    rw [Nat.mod_eq_of_lt this, Nat.or_comm, ← Nat.shiftLeft_eq, ← Nat.shiftLeft_add_eq_or_of_lt hlt]
    simp [asmLE, Nat.shiftLeft_eq]
    ring
  · simp only [shiftIn, asm] at *
    rw [BitVec.toNat_or, BitVec.toNat_shiftLeft, BitVec.toNat_setWidth, hr, Nat.mod_eq_of_lt hbn]
    have : asmBE s <<< 8 < 2 ^ n := by
      rw [Nat.shiftLeft_eq]
      have h1 := Nat.mul_lt_mul_of_pos_right hlt (by norm_num : 0 < 2 ^ 8)
      rw [← pow_add] at h1
      exact lt_of_lt_of_le h1 (Nat.pow_le_pow_right (by norm_num) (by omega))
    rw [Nat.mod_eq_of_lt this, ← Nat.shiftLeft_add_eq_or_of_lt (by omega)]
    simp [asmBE, asmLE, Nat.shiftLeft_eq]
    ring

theorem getLsbD_mask (w i : Nat) (hw : w ≤ 32) : (mask w).getLsbD i = decide (i < w) := by
  simp only [mask, BitVec.getLsbD_ofNat, Nat.testBit_two_pow_sub_one]
  by_cases h : i < w <;> simp [h]
  omega

/-- A value fits `w` bits exactly when its bits from `w` up are zero. -/
theorem and_mask_eq_iff (w : Nat) (hw : w ≤ 32) (v : AlgWord) :
    v &&& mask w = v ↔ ∀ i, w ≤ i → v.getLsbD i = false := by
  constructor
  · intro h i hi
    rw [← h, BitVec.getLsbD_and, getLsbD_mask w i hw]
    simp
    omega
  · intro h
    apply BitVec.eq_of_getLsbD_eq
    intro i hi
    rw [BitVec.getLsbD_and, getLsbD_mask w i hw]
    by_cases hh : i < w
    · simp [hh]
    · simp [h i (by omega)]

/-- The same, as a number: an unsigned `w`-bit value. -/
theorem and_mask_eq_iff_lt (w : Nat) (hw : w ≤ 32) (v : AlgWord) :
    v &&& mask w = v ↔ v.toNat < 2 ^ w := by
  have hm : 2 ^ w - 1 < 2 ^ 32 :=
    Nat.lt_of_lt_of_le (Nat.sub_lt (Nat.two_pow_pos w) one_pos) (Nat.pow_le_pow_right two_pos hw)
  rw [← BitVec.toNat_inj, BitVec.toNat_and, mask, BitVec.toNat_ofNat, Nat.mod_eq_of_lt hm,
    Nat.and_two_pow_sub_one_eq_mod]
  exact ⟨fun h => h ▸ Nat.mod_lt _ (Nat.two_pow_pos w), Nat.mod_eq_of_lt⟩

/-- A `w`-bit accumulator comes back from the word the families compute it in. -/
theorem toNat_ofNat_of_fits {w a : Nat} (hw : w ≤ 32) (h : a < 2 ^ w) :
    (BitVec.ofNat 32 a).toNat = a := by
  rw [BitVec.toNat_ofNat, Nat.mod_eq_of_lt (h.trans_le (Nat.pow_le_pow_right two_pos hw))]

theorem foldl_reflect (n : Nat) (v : AlgWord) (l : List Nat) (r : AlgWord) (i : Nat) (hi : i < 32) :
    (l.foldl (fun r i => if v.getLsbD (n - 1 - i) then r ||| (1#32 <<< i) else r) r).getLsbD i =
      (r.getLsbD i || (decide (i ∈ l) && v.getLsbD (n - 1 - i))) := by
  induction l generalizing r with
  | nil => simp
  | cons a l ih =>
    rw [List.foldl_cons, ih]
    by_cases h : i = a
    · subst h
      split <;> simp_all
    · have h2 : (1#32 <<< a).getLsbD i = false := by
        rw [BitVec.getLsbD_shiftLeft, BitVec.getLsbD_one]
        simp
        omega
      split <;> simp [h, h2]

/-- `reflect_n` bit by bit (R142). -/
theorem getLsbD_reflect (n : Nat) (v : AlgWord) (i : Nat) (hn : n ≤ 32) :
    (reflect n v).getLsbD i = (decide (i < n) && v.getLsbD (n - 1 - i)) := by
  by_cases hi : i < 32
  · rw [reflect, foldl_reflect _ _ _ _ _ hi]
    simp
  · rw [BitVec.getLsbD_of_ge _ _ (by omega)]
    simp
    omega

/-- One round of the CRC loop bit by bit (R142). -/
theorem getLsbD_crcStep (w : Nat) (poly a : AlgWord) (hw : w ≤ 32) (i : Nat) :
    (crcStep w poly a).getLsbD i =
      (decide (i < w) && ((decide (i < 32) && !decide (i < 1) && a.getLsbD (i - 1)) ^^
        (a.getLsbD (w - 1) && poly.getLsbD i))) := by
  unfold crcStep
  cases hx : a.getLsbD (w - 1)
  · rw [if_neg (by simp)]
    simp only [BitVec.getLsbD_and, BitVec.getLsbD_shiftLeft, getLsbD_mask _ _ hw, Bool.false_and,
      Bool.xor_false]
    exact Bool.and_comm _ _
  · rw [if_pos (by simp)]
    simp only [BitVec.getLsbD_and, BitVec.getLsbD_xor, BitVec.getLsbD_shiftLeft,
      getLsbD_mask _ _ hw, Bool.true_and]
    exact Bool.and_comm _ _

theorem absorbAll_append (alg : Alg) (a : Nat) (s t : List Byte) :
    absorbAll alg a (s ++ t) = absorbAll alg (absorbAll alg a s) t := List.foldl_append

end Sys2Proof.Machine
end

