-- ==== Sys2Proof/Laws/Memory.lean ====
section
/-! SUPPORT. The laws of the payload buffer (spec 20_memory.md R52, R59): reading after a write, and the
canonical form, which every write keeps. -/

namespace Sys2Proof.Machine

open Sys2Proof

@[simp] theorem Memory.read_nil (a : Nat) : Memory.read [] a = none := rfl

theorem Memory.read_cons (b : Nat) (v : Byte) (m : Memory) (a : Nat) :
    Memory.read ((b, v) :: m) a = if a = b then some v else Memory.read m a := rfl

/-- Reading the cell just written gives the byte written. -/
@[simp] theorem Memory.read_write_same (m : Memory) (a : Nat) (v : Byte) :
    Memory.read (Memory.write m a v) a = some v := by
  induction m with
  | nil => simp [Memory.write, Memory.read]
  | cons c m ih =>
    obtain ⟨b, w⟩ := c
    simp only [Memory.write]
    split
    · simp [Memory.read]
    · split
      · simp [Memory.read]
      · simpa [Memory.read, ‹¬a = b›] using ih

/-- A write leaves every other cell alone. -/
theorem Memory.read_write_other (m : Memory) {a b : Nat} (v : Byte) (h : b ≠ a) :
    Memory.read (Memory.write m a v) b = Memory.read m b := by
  induction m with
  | nil => simp [Memory.write, Memory.read, h]
  | cons c m ih =>
    obtain ⟨d, w⟩ := c
    simp only [Memory.write]
    split
    · simp [Memory.read, h]
    · split
      · subst_vars; simp [Memory.read, h]
      · simp only [Memory.read, ih]

/-- The canonical form of a nonempty buffer: its first address is below the next one. -/
theorem Memory.wf_cons (a : Nat) (v : Byte) (m : Memory) :
    Memory.wf ((a, v) :: m) = true ↔ (∀ c ∈ m.head?, a < c.1) ∧ Memory.wf m = true := by
  cases m with
  | nil => simp [Memory.wf]
  | cons c m => simp [Memory.wf]

/-- A write keeps the canonical form. -/
theorem Memory.wf_write {m : Memory} (a : Nat) (v : Byte) (h : Memory.wf m = true) :
    Memory.wf (Memory.write m a v) = true := by
  induction m with
  | nil => simp [Memory.write, Memory.wf]
  | cons c m ih =>
    obtain ⟨b, w⟩ := c
    have hb := (Memory.wf_cons b w m).1 h
    simp only [Memory.write]
    split
    · exact (Memory.wf_cons _ _ _).2 ⟨by simpa using ‹a < b›, h⟩
    · split
      · subst_vars; exact (Memory.wf_cons _ _ _).2 hb
      · refine (Memory.wf_cons _ _ _).2 ⟨?_, ih hb.2⟩
        cases m with
        | nil => simp [Memory.write]; omega
        | cons d m =>
          have hd := hb.1
          simp only [List.head?_cons, Option.mem_def, Option.some.injEq, forall_eq'] at hd
          simp only [Memory.write]
          split <;> (try split) <;> simp <;> omega

/-- Everything a span read can answer: the bytes of the cells in order, all of them written. -/
theorem Memory.readSpan_ok {m : Memory} {a n : Nat} {bs : List Byte} :
    Memory.readSpan m a n = .ok bs ↔
      bs.length = n ∧ ∀ i, i < n → Memory.read m (a + i) = bs[i]? := by
  induction n generalizing a bs with
  | zero => cases bs <;> simp [Memory.readSpan]
  | succ n ih =>
    simp only [Memory.readSpan]
    constructor
    · intro h
      split at h
      · cases h
      · next b hb =>
        split at h
        · next cs hcs =>
          cases h
          obtain ⟨h1, h2⟩ := ih.1 hcs
          refine ⟨by simp [h1], fun i hi => ?_⟩
          cases i with
          | zero => simpa using hb
          | succ i =>
            have := h2 i (by omega)
            simpa [Nat.add_assoc, Nat.add_comm 1 i] using this
        · cases h
    · rintro ⟨h1, h2⟩
      cases bs with
      | nil => simp at h1
      | cons b cs =>
        have h0 := h2 0 (by omega)
        simp only [Nat.add_zero, List.getElem?_cons_zero] at h0
        have ht : Memory.readSpan m (a + 1) n = .ok cs := ih.2 ⟨by simpa using h1, fun i hi => by
          have := h2 (i + 1) (by omega)
          simpa [Nat.add_assoc, Nat.add_comm 1 i] using this⟩
        simp [h0, ht]

/-- A span read of cells that are all written answers. -/
theorem Memory.readSpan_exists {m : Memory} {a n : Nat}
    (h : ∀ i, i < n → (Memory.read m (a + i)).isSome = true) :
    ∃ bs, Memory.readSpan m a n = .ok bs := by
  induction n generalizing a with
  | zero => exact ⟨[], rfl⟩
  | succ n ih =>
    obtain ⟨b, hb⟩ := Option.isSome_iff_exists.1 (by simpa using h 0 (by omega))
    obtain ⟨bs, hbs⟩ := ih (a := a + 1) (fun i hi => by
      simpa [Nat.add_assoc, Nat.add_comm 1 i] using h (i + 1) (by omega))
    exact ⟨b :: bs, by simp [Memory.readSpan, hb, hbs]⟩

/-- When a span read stops, and by which fault: exactly where one of its cells is unwritten. -/
theorem Memory.readSpan_error {m : Memory} {a n : Nat} {f : Fault} :
    Memory.readSpan m a n = .error f ↔
      f = .pbufReadUnwritten ∧ ∃ i, i < n ∧ Memory.read m (a + i) = none := by
  induction n generalizing a with
  | zero => simp [Memory.readSpan]
  | succ n ih =>
    rw [Nat.exists_lt_succ_left]
    simp only [Memory.readSpan, Nat.add_zero, ← Nat.add_assoc, Nat.add_right_comm a _ 1]
    cases h : Memory.read m a with
    | none => simp [eq_comm]
    | some b =>
      simp only [reduceCtorEq, false_or, ← ih]
      cases Memory.readSpan m (a + 1) n <;> simp

/-- A span read depends on the cells of the span only. -/
theorem Memory.readSpan_congr {m k : Memory} {a n : Nat}
    (h : ∀ i, i < n → Memory.read m (a + i) = Memory.read k (a + i)) :
    Memory.readSpan m a n = Memory.readSpan k a n := by
  induction n generalizing a with
  | zero => rfl
  | succ n ih =>
    have h0 : Memory.read m a = Memory.read k a := by simpa using h 0 (by omega)
    have ht := ih (a := a + 1) (fun i hi => by
      simpa [Nat.add_assoc, Nat.add_comm 1 i] using h (i + 1) (by omega))
    simp [Memory.readSpan, h0, ht]

end Sys2Proof.Machine
end

