-- ==== Sys2Proof/Laws/State.lean ====
section
/-! SUPPORT. One lemma per field of the state for every shared operation that updates it. -/

namespace Sys2Proof.Machine

open Sys2Proof

/-! Raising an event: the configuration, the host's inputs, the position, the data registers and the buffer are
unchanged by every event; the result is the event's code alone; `st`, `res` and `ovr` follow the event. -/

@[simp] theorem raise_cfg (e : Event) (s : State) : (raise e s).cfg = s.cfg := by cases e <;> rfl
@[simp] theorem raise_port (e : Event) (s : State) : (raise e s).port = s.port := by cases e <;> rfl
@[simp] theorem raise_cnt (e : Event) (s : State) : (raise e s).cnt = s.cnt := by cases e <;> rfl
@[simp] theorem raise_opc (e : Event) (s : State) : (raise e s).opc = s.opc := by cases e <;> rfl
@[simp] theorem raise_len (e : Event) (s : State) : (raise e s).len = s.len := by cases e <;> rfl
@[simp] theorem raise_trl (e : Event) (s : State) : (raise e s).trl = s.trl := by cases e <;> rfl
@[simp] theorem raise_acc (e : Event) (s : State) : (raise e s).acc = s.acc := by cases e <;> rfl
@[simp] theorem raise_gacc (e : Event) (s : State) : (raise e s).gacc = s.gacc := by cases e <;> rfl
@[simp] theorem raise_pbuf (e : Event) (s : State) : (raise e s).pbuf = s.pbuf := by cases e <;> rfl
@[simp] theorem raise_out (e : Event) (s : State) : (raise e s).out = ⟨e, none⟩ := by cases e <;> rfl

@[simp] theorem raise_none_st (s : State) : (raise .none s).st = s.st := rfl
@[simp] theorem raise_none_res (s : State) : (raise .none s).res = s.res := rfl
@[simp] theorem raise_none_ovr (s : State) : (raise .none s).ovr = s.ovr := rfl
@[simp] theorem raise_frameOk_st (s : State) : (raise .frameOk s).st = .hold := rfl
@[simp] theorem raise_frameOk_res (s : State) : (raise .frameOk s).res = .frameOk := rfl
@[simp] theorem raise_frameOk_ovr (s : State) : (raise .frameOk s).ovr = s.ovr := rfl
@[simp] theorem raise_malformed_st (s : State) : (raise .malformed s).st = .hunt := rfl
@[simp] theorem raise_malformed_res (s : State) : (raise .malformed s).res = .malformed := rfl
@[simp] theorem raise_malformed_ovr (s : State) : (raise .malformed s).ovr = s.ovr := rfl
@[simp] theorem raise_unknownCmd_st (s : State) : (raise .unknownCmd s).st = .hunt := rfl
@[simp] theorem raise_unknownCmd_res (s : State) : (raise .unknownCmd s).res = .unknownCmd := rfl
@[simp] theorem raise_unknownCmd_ovr (s : State) : (raise .unknownCmd s).ovr = s.ovr := rfl
@[simp] theorem raise_integrityMismatch_st (s : State) : (raise .integrityMismatch s).st = .hunt := rfl
@[simp] theorem raise_integrityMismatch_res (s : State) : (raise .integrityMismatch s).res = .integrityMismatch := rfl
@[simp] theorem raise_integrityMismatch_ovr (s : State) : (raise .integrityMismatch s).ovr = s.ovr := rfl
@[simp] theorem raise_fieldOutOfRange_st (s : State) : (raise .fieldOutOfRange s).st = s.st := rfl
@[simp] theorem raise_fieldOutOfRange_res (s : State) : (raise .fieldOutOfRange s).res = s.res := rfl
@[simp] theorem raise_fieldOutOfRange_ovr (s : State) : (raise .fieldOutOfRange s).ovr = s.ovr := rfl
@[simp] theorem raise_xOk_st (s : State) : (raise .xOk s).st = s.st := rfl
@[simp] theorem raise_xOk_res (s : State) : (raise .xOk s).res = s.res := rfl
@[simp] theorem raise_xOk_ovr (s : State) : (raise .xOk s).ovr = s.ovr := rfl
@[simp] theorem raise_illegalOp_st (s : State) : (raise .illegalOp s).st = s.st := rfl
@[simp] theorem raise_illegalOp_res (s : State) : (raise .illegalOp s).res = s.res := rfl
@[simp] theorem raise_illegalOp_ovr (s : State) : (raise .illegalOp s).ovr = s.ovr := rfl
@[simp] theorem raise_notHeld_st (s : State) : (raise .notHeld s).st = s.st := rfl
@[simp] theorem raise_notHeld_res (s : State) : (raise .notHeld s).res = s.res := rfl
@[simp] theorem raise_notHeld_ovr (s : State) : (raise .notHeld s).ovr = s.ovr := rfl
@[simp] theorem raise_badSel_st (s : State) : (raise .badSel s).st = s.st := rfl
@[simp] theorem raise_badSel_res (s : State) : (raise .badSel s).res = s.res := rfl
@[simp] theorem raise_badSel_ovr (s : State) : (raise .badSel s).ovr = s.ovr := rfl
@[simp] theorem raise_overrun_st (s : State) : (raise .overrun s).st = s.st := rfl
@[simp] theorem raise_overrun_res (s : State) : (raise .overrun s).res = s.res := rfl
@[simp] theorem raise_overrun_ovr (s : State) : (raise .overrun s).ovr = true := rfl

/-! Delivering an `xout` changes the result only. -/

@[simp] theorem deliver_cfg (recs : List FieldRecord) (s : State) : (deliver recs s).cfg = s.cfg := rfl
@[simp] theorem deliver_port (recs : List FieldRecord) (s : State) : (deliver recs s).port = s.port := rfl
@[simp] theorem deliver_out (recs : List FieldRecord) (s : State) : (deliver recs s).out = ⟨.xOk, some recs⟩ := rfl
@[simp] theorem deliver_st (recs : List FieldRecord) (s : State) : (deliver recs s).st = s.st := rfl
@[simp] theorem deliver_cnt (recs : List FieldRecord) (s : State) : (deliver recs s).cnt = s.cnt := rfl
@[simp] theorem deliver_opc (recs : List FieldRecord) (s : State) : (deliver recs s).opc = s.opc := rfl
@[simp] theorem deliver_len (recs : List FieldRecord) (s : State) : (deliver recs s).len = s.len := rfl
@[simp] theorem deliver_trl (recs : List FieldRecord) (s : State) : (deliver recs s).trl = s.trl := rfl
@[simp] theorem deliver_acc (recs : List FieldRecord) (s : State) : (deliver recs s).acc = s.acc := rfl
@[simp] theorem deliver_gacc (recs : List FieldRecord) (s : State) : (deliver recs s).gacc = s.gacc := rfl
@[simp] theorem deliver_res (recs : List FieldRecord) (s : State) : (deliver recs s).res = s.res := rfl
@[simp] theorem deliver_ovr (recs : List FieldRecord) (s : State) : (deliver recs s).ovr = s.ovr := rfl
@[simp] theorem deliver_pbuf (recs : List FieldRecord) (s : State) : (deliver recs s).pbuf = s.pbuf := rfl

/-! RST's registers: the buffer is unchanged. -/

@[simp] theorem resetRegisters_cfg (s : State) : (resetRegisters s).cfg = s.cfg := rfl
@[simp] theorem resetRegisters_port (s : State) : (resetRegisters s).port = s.port := rfl
@[simp] theorem resetRegisters_out (s : State) : (resetRegisters s).out = s.out := rfl
@[simp] theorem resetRegisters_st (s : State) : (resetRegisters s).st = .hunt := rfl
@[simp] theorem resetRegisters_cnt (s : State) : (resetRegisters s).cnt = 0 := rfl
@[simp] theorem resetRegisters_opc (s : State) : (resetRegisters s).opc = 0 := rfl
@[simp] theorem resetRegisters_len (s : State) : (resetRegisters s).len = 0 := rfl
@[simp] theorem resetRegisters_trl (s : State) : (resetRegisters s).trl = 0 := rfl
@[simp] theorem resetRegisters_acc (s : State) : (resetRegisters s).acc = algInit s.cfg.alg := rfl
@[simp] theorem resetRegisters_gacc (s : State) : (resetRegisters s).gacc = algInit s.cfg.alg := rfl
@[simp] theorem resetRegisters_res (s : State) : (resetRegisters s).res = .none := rfl
@[simp] theorem resetRegisters_ovr (s : State) : (resetRegisters s).ovr = false := rfl
@[simp] theorem resetRegisters_pbuf (s : State) : (resetRegisters s).pbuf = s.pbuf := rfl

/-! The hardware reset: the buffer is unwritten. -/

@[simp] theorem hardwareReset_cfg (s : State) : (hardwareReset s).cfg = s.cfg := rfl
@[simp] theorem hardwareReset_port (s : State) : (hardwareReset s).port = s.port := rfl
@[simp] theorem hardwareReset_out (s : State) : (hardwareReset s).out = ⟨.none, none⟩ := rfl
@[simp] theorem hardwareReset_st (s : State) : (hardwareReset s).st = .hunt := rfl
@[simp] theorem hardwareReset_cnt (s : State) : (hardwareReset s).cnt = 0 := rfl
@[simp] theorem hardwareReset_opc (s : State) : (hardwareReset s).opc = 0 := rfl
@[simp] theorem hardwareReset_len (s : State) : (hardwareReset s).len = 0 := rfl
@[simp] theorem hardwareReset_trl (s : State) : (hardwareReset s).trl = 0 := rfl
@[simp] theorem hardwareReset_acc (s : State) : (hardwareReset s).acc = algInit s.cfg.alg := rfl
@[simp] theorem hardwareReset_gacc (s : State) : (hardwareReset s).gacc = algInit s.cfg.alg := rfl
@[simp] theorem hardwareReset_res (s : State) : (hardwareReset s).res = .none := rfl
@[simp] theorem hardwareReset_ovr (s : State) : (hardwareReset s).ovr = false := rfl
@[simp] theorem hardwareReset_pbuf (s : State) : (hardwareReset s).pbuf = [] := rfl

/-! FLUSH's registers. -/

@[simp] theorem flushFrame_cfg (s : State) : (flushFrame s).cfg = s.cfg := rfl
@[simp] theorem flushFrame_port (s : State) : (flushFrame s).port = s.port := rfl
@[simp] theorem flushFrame_out (s : State) : (flushFrame s).out = s.out := rfl
@[simp] theorem flushFrame_st (s : State) : (flushFrame s).st = .hunt := rfl
@[simp] theorem flushFrame_cnt (s : State) : (flushFrame s).cnt = 0 := rfl
@[simp] theorem flushFrame_opc (s : State) : (flushFrame s).opc = s.opc := rfl
@[simp] theorem flushFrame_len (s : State) : (flushFrame s).len = s.len := rfl
@[simp] theorem flushFrame_trl (s : State) : (flushFrame s).trl = s.trl := rfl
@[simp] theorem flushFrame_acc (s : State) : (flushFrame s).acc = algInit s.cfg.alg := rfl
@[simp] theorem flushFrame_gacc (s : State) : (flushFrame s).gacc = s.gacc := rfl
@[simp] theorem flushFrame_res (s : State) : (flushFrame s).res = .none := rfl
@[simp] theorem flushFrame_ovr (s : State) : (flushFrame s).ovr = false := rfl
@[simp] theorem flushFrame_pbuf (s : State) : (flushFrame s).pbuf = s.pbuf := rfl

/-! The reset state of a configuration. -/

@[simp] theorem resetWith_cfg (c : Cfg) : (State.resetWith c).cfg = c := rfl
@[simp] theorem resetWith_port (c : Cfg) : (State.resetWith c).port = [] := rfl
@[simp] theorem resetWith_out (c : Cfg) : (State.resetWith c).out = ⟨.none, none⟩ := rfl
@[simp] theorem resetWith_st (c : Cfg) : (State.resetWith c).st = .hunt := rfl
@[simp] theorem resetWith_cnt (c : Cfg) : (State.resetWith c).cnt = 0 := rfl
@[simp] theorem resetWith_opc (c : Cfg) : (State.resetWith c).opc = 0 := rfl
@[simp] theorem resetWith_len (c : Cfg) : (State.resetWith c).len = 0 := rfl
@[simp] theorem resetWith_trl (c : Cfg) : (State.resetWith c).trl = 0 := rfl
@[simp] theorem resetWith_acc (c : Cfg) : (State.resetWith c).acc = algInit c.alg := rfl
@[simp] theorem resetWith_gacc (c : Cfg) : (State.resetWith c).gacc = algInit c.alg := rfl
@[simp] theorem resetWith_res (c : Cfg) : (State.resetWith c).res = .none := rfl
@[simp] theorem resetWith_ovr (c : Cfg) : (State.resetWith c).ovr = false := rfl
@[simp] theorem resetWith_pbuf (c : Cfg) : (State.resetWith c).pbuf = [] := rfl

end Sys2Proof.Machine
end

