-- ==== Sys2Proof/Laws/Ops.lean ====
section
/-! SUPPORT. For each shared operation, one lemma that says everything it can do. -/

namespace Sys2Proof.Machine

open Sys2Proof

/-- Everything `MemWrite` can answer. -/
theorem memWrite_ok {s t : State} {a : Nat} {v : Byte} :
    memWrite s a v = .ok t ↔ a < s.cfg.lenMax ∧ t = { s with pbuf := Memory.write s.pbuf a v } := by
  unfold memWrite
  split <;> simp_all [eq_comm]

/-- `MemWrite` stops exactly outside the buffer. -/
theorem memWrite_error {s : State} {a : Nat} {v : Byte} {f : Fault} :
    memWrite s a v = .error f ↔ s.cfg.lenMax ≤ a ∧ f = .pbufWriteOutOfRange := by
  unfold memWrite
  split <;> simp_all [eq_comm]

/-- Everything `MemRead` can answer. -/
theorem memRead_ok {s : State} {a n : Nat} {bs : List Byte} :
    memRead s a n = .ok bs ↔
      (1 ≤ n ∧ a + n ≤ s.len.toNat ∧ s.st = .hold) ∧
        bs.length = n ∧ ∀ i, i < n → Memory.read s.pbuf (a + i) = bs[i]? := by
  unfold memRead
  split
  · next h => simp only [Memory.readSpan_ok, h, true_and, and_self]
  · next h => simp [h]

/-- When `MemRead` stops, and by which fault: outside the held payload, or where a cell is unwritten. -/
theorem memRead_error {s : State} {a n : Nat} {f : Fault} :
    memRead s a n = .error f ↔
      (¬(1 ≤ n ∧ a + n ≤ s.len.toNat ∧ s.st = .hold) ∧ f = .pbufReadOutOfRange) ∨
        (1 ≤ n ∧ a + n ≤ s.len.toNat ∧ s.st = .hold) ∧
          f = .pbufReadUnwritten ∧ ∃ i, i < n ∧ Memory.read s.pbuf (a + i) = none := by
  unfold memRead
  split
  · next h =>
    simp only [Memory.readSpan_error, h, true_and, and_self, not_true_eq_false, false_and, false_or]
  · next h =>
    rw [iff_comm]
    simp only [h, not_false_eq_true, true_and, false_and, or_false, Except.error.injEq]
    exact eq_comm

/-- Everything a field record can be. -/
theorem fieldRecord_ok {s : State} {d : FieldDesc} {r : FieldRecord} :
    fieldRecord s d = .ok r ↔ ∃ bs, memRead s d.offset d.width = .ok bs ∧ r = recordOf s.cfg.bo d bs := by
  unfold fieldRecord
  cases memRead s d.offset d.width <;> simp [eq_comm (a := r)]

/-- Everything the records of a schema can be: one for each descriptor, in order. -/
theorem fieldRecords_ok {s : State} {ds : List FieldDesc} {rs : List FieldRecord} :
    fieldRecords s ds = .ok rs ↔ List.Forall₂ (fun d r => fieldRecord s d = .ok r) ds rs := by
  induction ds generalizing rs with
  | nil => simp [fieldRecords, eq_comm]
  | cons d ds ih =>
    simp only [fieldRecords]
    constructor
    · intro h
      split at h
      · cases h
      · next r hr =>
        split at h
        · next rs' hrs => cases h; exact .cons hr (ih.1 hrs)
        · cases h
    · intro h
      cases h with
      | cons hr hrs => simp [hr, ih.2 hrs]

/-- Everything the extraction under one entry can do. -/
theorem extract_next {e : CatEntry} {s t : State} :
    extract e s = .next t ↔
      (s.len.toNat < need e ∧ t = raise .fieldOutOfRange s) ∨
        (need e ≤ s.len.toNat ∧ ∃ recs, fieldRecords s e.fields = .ok recs ∧ t = deliver recs s) := by
  unfold extract
  split
  · next h => simp [h, eq_comm, Nat.not_le.2 h]
  · next h =>
    have h' : need e ≤ s.len.toNat := by omega
    cases fieldRecords s e.fields <;> simp [h, h', eq_comm (a := t)]

/-- Everything XDEC can do. -/
theorem execXdec_next {k : Byte} {s t : State} :
    execXdec k s = .next t ↔
      (s.st ≠ .hold ∧ t = raise .notHeld s) ∨
        (s.st = .hold ∧ s.cfg.cat[k.toNat]? = none ∧ t = raise .badSel s) ∨
          ∃ e, s.st = .hold ∧ s.cfg.cat[k.toNat]? = some e ∧ extract e s = .next t := by
  unfold execXdec indexOperand
  by_cases h : s.st = .hold
  · cases s.cfg.cat[k.toNat]? <;> simp [h, eq_comm (a := t)]
  · simp [h, eq_comm (a := t)]

/-- Everything a PUSH in `PAY` can do. -/
theorem pushPay_next {b : Byte} {s t : State} :
    pushPay b s = .next t ↔
      s.cnt.toNat < s.cfg.lenMax ∧
        t = pushPayRegs b { s with pbuf := Memory.write s.pbuf s.cnt.toNat b } := by
  unfold pushPay memWrite
  split <;> (split at * <;> simp_all [eq_comm])

/-- Everything a pushed byte can do, by the state of the sequencer. -/
theorem pushByte_next {b : Byte} {s t : State} :
    pushByte b s = .next t ↔
      (s.st = .hunt ∧ t = pushHunt b s) ∨ (s.st = .opc ∧ t = pushOpc b s) ∨
        (s.st = .len ∧ t = pushLen b s) ∨ (s.st = .pay ∧ pushPay b s = .next t) ∨
          (s.st = .trl ∧ t = pushTrl b s) ∨ (s.st = .hold ∧ t = raise .overrun s) := by
  unfold pushByte
  cases s.st <;> simp [eq_comm (a := t)]

/-- Everything one step can do. -/
theorem step_next {s t : State} :
    step s = .next t ↔
      cfgWf s.cfg = true ∧
        ((s.port = [] ∧ t = s) ∨
          ∃ w rest, s.port = w :: rest ∧
            ((decodeInput w = none ∧ t = hardwareReset { s with port := rest }) ∨
              ∃ i, decodeInput w = some i ∧ exec i { s with port := rest } = .next t)) := by
  unfold step take
  by_cases hc : cfgWf s.cfg = true
  · cases hp : s.port with
    | nil => simp [hc, eq_comm]
    | cons w rest =>
      cases hd : decodeInput w with
      | none => simp [hc, hd, eq_comm]
      | some i => simp [hc, hd]
  · simp [hc]

end Sys2Proof.Machine
end

