-- ==== Sys2Proof/Laws/PerInstr.lean ====
section
/-! SUPPORT. Families of statements made instruction by instruction. -/

namespace Sys2Proof.Laws.EncodingInTable

open Sys2Proof

/-- The canonical encoding of an instruction is a word of the row of spec/opcode_table.json that has its
mnemonic (R83, R87, R180). -/
def Statement (i : Instr) : Prop :=
  ∃ r ∈ opcodeTable, r.mnemonic = i.mnemonic ∧ r.covers (encode i) = true

theorem nop : Statement .nop :=
  ⟨⟨"NOP", .cw12, 0x000, 0xF00⟩, by decide, rfl, by decide⟩

theorem rst : Statement .rst :=
  ⟨⟨"RST", .cw12, 0x100, 0xF00⟩, by decide, rfl, by decide⟩

theorem flush : Statement .flush :=
  ⟨⟨"FLUSH", .cw12, 0x200, 0xF00⟩, by decide, rfl, by decide⟩

theorem push (b : Byte) : Statement (.push b) :=
  ⟨⟨"PUSH", .cw12, 0x300, 0xF00⟩, by decide, rfl, by revert b; decide⟩

theorem xdec (k : Byte) : Statement (.xdec k) :=
  ⟨⟨"XDEC", .cw12, 0x400, 0xF00⟩, by decide, rfl, by revert k; decide⟩

theorem ginit : Statement .ginit :=
  ⟨⟨"GINIT", .cw12, 0x500, 0xF00⟩, by decide, rfl, by decide⟩

theorem gbyte (b : Byte) : Statement (.gbyte b) :=
  ⟨⟨"GBYTE", .cw12, 0x600, 0xF00⟩, by decide, rfl, by revert b; decide⟩

theorem reserved7 : Statement .reserved7 :=
  ⟨⟨"RESERVED_7", .cw12, 0x700, 0xF00⟩, by decide, rfl, by decide⟩

theorem reserved8 : Statement .reserved8 :=
  ⟨⟨"RESERVED_8", .cw12, 0x800, 0xF00⟩, by decide, rfl, by decide⟩

theorem reserved9 : Statement .reserved9 :=
  ⟨⟨"RESERVED_9", .cw12, 0x900, 0xF00⟩, by decide, rfl, by decide⟩

theorem reservedA : Statement .reservedA :=
  ⟨⟨"RESERVED_A", .cw12, 0xA00, 0xF00⟩, by decide, rfl, by decide⟩

theorem reservedB : Statement .reservedB :=
  ⟨⟨"RESERVED_B", .cw12, 0xB00, 0xF00⟩, by decide, rfl, by decide⟩

theorem reservedC : Statement .reservedC :=
  ⟨⟨"RESERVED_C", .cw12, 0xC00, 0xF00⟩, by decide, rfl, by decide⟩

theorem reservedD : Statement .reservedD :=
  ⟨⟨"RESERVED_D", .cw12, 0xD00, 0xF00⟩, by decide, rfl, by decide⟩

theorem reservedE : Statement .reservedE :=
  ⟨⟨"RESERVED_E", .cw12, 0xE00, 0xF00⟩, by decide, rfl, by decide⟩

theorem reservedF : Statement .reservedF :=
  ⟨⟨"RESERVED_F", .cw12, 0xF00, 0xF00⟩, by decide, rfl, by decide⟩

theorem wireQueryStatus : Statement .wireQueryStatus :=
  ⟨⟨"WIRE_QUERY_STATUS", .frame, 0x51, 0xFF⟩, by decide, rfl, by decide⟩

theorem wireTestInts : Statement .wireTestInts :=
  ⟨⟨"WIRE_TEST_INTS", .frame, 0x52, 0xFF⟩, by decide, rfl, by decide⟩

theorem wireTestFlags : Statement .wireTestFlags :=
  ⟨⟨"WIRE_TEST_FLAGS", .frame, 0x53, 0xFF⟩, by decide, rfl, by decide⟩

theorem wireTestEmpty : Statement .wireTestEmpty :=
  ⟨⟨"WIRE_TEST_EMPTY", .frame, 0x54, 0xFF⟩, by decide, rfl, by decide⟩

end Sys2Proof.Laws.EncodingInTable
end

