-- ==== Sys2Proof/Laws/Runs.lean ====
section
/-! SUPPORT. What a pushed byte and an extraction leave of the rest of the state, and how runs compose. -/

namespace Sys2Proof.Machine

open Sys2Proof

/-- Everything a pushed byte does outside the frame being taken: what it never writes, and the event with what
follows from it. -/
theorem pushByte_frame {b : Byte} {s t : State} (h : pushByte b s = .next t) :
    t.cfg = s.cfg ∧ t.port = s.port ∧ t.gacc = s.gacc ∧ t.out.xout = none ∧
    (t.out.ev = .none ∧ t.res = s.res ∧ t.ovr = s.ovr ∧ t.st ≠ .hold ∧ s.st ≠ .hold ∨
      t.out.ev = .malformed ∧ t.res = .malformed ∧ t.st = .hunt ∧ t.ovr = s.ovr ∧ s.st = .len ∧
        s.cfg.lenW ≤ s.cnt.toNat + 1 ∨
      t.out.ev = .integrityMismatch ∧ t.res = .integrityMismatch ∧ t.st = .hunt ∧ t.ovr = s.ovr ∧
        s.st = .trl ∧ trlW s.cfg ≤ s.cnt.toNat + 1 ∨
      t.out.ev = .unknownCmd ∧ t.res = .unknownCmd ∧ t.st = .hunt ∧ t.ovr = s.ovr ∧
        s.st = .trl ∧ trlW s.cfg ≤ s.cnt.toNat + 1 ∨
      t.out.ev = .frameOk ∧ t.res = .frameOk ∧ t.st = .hold ∧ t.ovr = s.ovr ∧
        s.st = .trl ∧ trlW s.cfg ≤ s.cnt.toNat + 1 ∨
      t.out.ev = .overrun ∧ t.res = s.res ∧ t.ovr = true ∧ s.st = .hold ∧ t.st = .hold) ∧
    (s.st ≠ .pay → t.pbuf = s.pbuf) ∧
    ∀ a, a ≠ s.cnt.toNat → Memory.read t.pbuf a = Memory.read s.pbuf a := by
  rw [pushByte_next] at h
  rcases h with ⟨hs, rfl⟩ | ⟨hs, rfl⟩ | ⟨hs, rfl⟩ | ⟨hs, h⟩ | ⟨hs, rfl⟩ | ⟨hs, rfl⟩
  · unfold pushHunt
    split <;> simp [hs]
  · simp [pushOpc, hs]
  · unfold pushLen
    dsimp only
    repeat' split
    all_goals simp [hs]
    omega
  · have h := (pushPay_next.1 h).2
    subst h
    unfold pushPayRegs
    split <;> simp [hs] <;> exact fun a ha => Memory.read_write_other _ _ ha
  · unfold pushTrl verdict
    dsimp only
    repeat' split
    all_goals simp [hs]
    all_goals omega
  · simp [hs]

/-- XDEC writes the result only, and which events it gives. -/
theorem execXdec_frame {k : Byte} {s t : State} (h : execXdec k s = .next t) :
    t = { s with out := t.out } ∧
      (t.out.ev = .notHeld ∧ t.out.xout = none ∧ s.st ≠ .hold ∨
        s.st = .hold ∧ (t.out.ev = .badSel ∧ t.out.xout = none ∨
          t.out.ev = .fieldOutOfRange ∧ t.out.xout = none ∨
          t.out.ev = .xOk ∧ t.out.xout.isSome = true)) := by
  rcases execXdec_next.1 h with ⟨hh, rfl⟩ | ⟨hh, _, rfl⟩ | ⟨e, hh, _, he⟩
  · simp [hh, raise]
  · simp [hh, raise]
  · rcases extract_next.1 he with ⟨_, rfl⟩ | ⟨_, r, _, rfl⟩ <;> simp [hh, raise, deliver]

/-- Everything one operation of a run can do. -/
theorem runsTo_cons {i : Instr} {is : List Instr} {s u : State} {rs : List Result} :
    RunsTo (i :: is) s u rs ↔
      ∃ t rs', exec i s = .next t ∧ RunsTo is t u rs' ∧ rs = t.out :: rs' := by
  unfold RunsTo
  constructor
  · intro h
    simp only [runOps] at h
    cases hx : exec i s with
    | next t =>
      simp only [hx] at h
      cases hr : runOps is t with
      | next p =>
        simp only [hr, Host.Outcome.next.injEq, Prod.mk.injEq] at h
        exact ⟨t, p.2, rfl, by rw [hr, ← h.1], h.2.symm⟩
      | fault f => simp [hr] at h
      | refused r => simp [hr] at h
    | fault f => simp [hx] at h
    | refused r => simp [hx] at h
  · rintro ⟨t, rs', hx, hr, rfl⟩
    simp only [runOps, hx, hr]

@[simp] theorem runsTo_nil {s t : State} {rs : List Result} :
    RunsTo [] s t rs ↔ t = s ∧ rs = [] := by
  simp [RunsTo, runOps, eq_comm]

/-- A run of two sequences is the run of one and then the other. -/
theorem runsTo_append {is js : List Instr} {s u : State} {rs : List Result} :
    RunsTo (is ++ js) s u rs ↔
      ∃ t r1 r2, RunsTo is s t r1 ∧ RunsTo js t u r2 ∧ rs = r1 ++ r2 := by
  induction is generalizing s rs with
  | nil => simp
  | cons i is ih =>
    simp only [List.cons_append, runsTo_cons, ih]
    constructor
    · rintro ⟨v, rs', h1, ⟨t, r1, r2, h2, h3, rfl⟩, rfl⟩
      exact ⟨t, v.out :: r1, r2, ⟨v, r1, h1, h2, rfl⟩, h3, rfl⟩
    · rintro ⟨t, r1, r2, ⟨v, r1', h1, h2, rfl⟩, h3, rfl⟩
      exact ⟨v, r1' ++ r2, h1, ⟨t, r1', r2, h2, h3, rfl⟩, rfl⟩

end Sys2Proof.Machine
end

