-- ==== Sys2Proof/WellFormed.lean ====
section
/-! DEFINITION. Well-formedness of instructions (spec 30_encoding.md R84, R88, R89). The well-formedness of a
configuration and of a catalog, `CFG_WF` and `CAT_WF`, is `cfgWf` and `catWf` of Machine/Catalog.lean. -/

namespace Sys2Proof

/-- An instruction is well formed under a configuration. Every operation of the command port is, with any
argument (R84, R88); a FRAME row is reference-only: it names an entry of `CAT_REF`, so it is well formed where
the catalog has an entry with its opcode (R89). The machine runs it in any case (log entry 9). -/
def Instr.wf (c : Cfg) (i : Instr) : Bool :=
  match encode i with
  | .command _ => true
  | .wire b => (Machine.lookup c.cat b).isSome
  | .hardwareReset => false

end Sys2Proof
end

