-- ==== Sys2Proof/Tests/Slice0.lean ====
section
/-! SUPPORT. The model's own tests: well-formedness refused check by check, every constructor's word written out
from the encoding, at most two one-step tests for each instruction (expected values from spec/95_test_vectors.md),
and for every statement with hypotheses a state and operands that meet them. -/

namespace Sys2Proof.Tests

set_option Elab.async false

open Sys2Proof Sys2Proof.Machine

/-! ## Small states -/

/-- `CFG_REF_A` with a two-byte length field, as in V40-12. -/
def cfgA2 : Cfg := { cfgRefA with lenW := 2, lenMax := 300 }

/-- `CFG_REF_A` with `BO = BE`, as in V40-16. -/
def cfgABE : Cfg := { cfgRefA with bo := .be }

/-- The accumulator over the covered span of a frame of which these bytes have been taken. -/
def accOf (c : Cfg) (o : Byte) (lb p : List Byte) : Nat :=
  absorbAll c.alg (algInit c.alg) (covered c o lb p)

/-- A buffer whose first cells hold `p`. -/
def bufOf (p : List Byte) : Memory := p.zipIdx.map fun x => (x.2, x.1)

def inOpc (c : Cfg) : State := { State.resetWith c with st := .opc, acc := startAcc c }

def inLen (c : Cfg) (o : Byte) (done : List Byte) : State :=
  { State.resetWith c with
    st := .len, opc := o, cnt := BitVec.ofNat 16 done.length, len := BitVec.ofNat 16 (asm c.bo done),
    acc := accOf c o done [] }

def inPay (c : Cfg) (o : Byte) (n : Nat) (p : List Byte) : State :=
  { State.resetWith c with
    st := .pay, opc := o, cnt := BitVec.ofNat 16 p.length, len := BitVec.ofNat 16 n, pbuf := bufOf p,
    acc := accOf c o (ser c.bo n c.lenW) p }

def inTrl (c : Cfg) (o : Byte) (p tr : List Byte) : State :=
  { State.resetWith c with
    st := .trl, opc := o, cnt := BitVec.ofNat 16 tr.length, len := BitVec.ofNat 16 p.length,
    trl := BitVec.ofNat 32 (asm c.bo tr), pbuf := bufOf p, acc := accOf c o (ser c.bo p.length c.lenW) p }

def inHold (c : Cfg) (o : Byte) (p : List Byte) : State :=
  let a := accOf c o (ser c.bo p.length c.lenW) p
  { State.resetWith c with
    st := .hold, opc := o, len := BitVec.ofNat 16 p.length, trl := algFin c.alg a, pbuf := bufOf p,
    acc := a, res := .frameOk }

/-- The payload of V30-2. -/
def pay2 : List Byte := [0x00, 0x00, 0x09, 0x09]

/-- V30-2 held under `CFG_REF_A` (program P2 after step 11). -/
def held2 : State := inHold cfgRefA 0x51 pay2

/-- The outcome is a next state with a property. -/
def goesTo (o : Host.Outcome State Fault Refusal) (p : State → Bool) : Bool :=
  match o with
  | .next t => p t
  | .fault _ => false
  | .refused _ => false

theorem goesTo_elim {o : Host.Outcome State Fault Refusal} {p : State → Bool}
    (h : goesTo o p = true) : ∃ t, o = .next t ∧ p t = true := by
  cases o with
  | next t => exact ⟨t, rfl, h⟩
  | fault _ => simp [goesTo] at h
  | refused _ => simp [goesTo] at h

/-- The run goes on to its end. -/
def runs (is : List Instr) (s : State) : Bool :=
  match runOps is s with
  | .next _ => true
  | .fault _ => false
  | .refused _ => false

theorem runs_elim {is : List Instr} {s : State} (h : runs is s = true) : ∃ t rs, RunsTo is s t rs := by
  unfold runs at h
  split at h
  · next p hp => exact ⟨p.1, p.2, hp⟩
  · cases h
  · cases h

/-! ## Well-formedness: each check refuses an ill-formed term (V42-3, R16, R177) -/

def withFields (fs : List FieldDesc) : Cfg := { cfgRefA with cat := [⟨0x51, "E", [], fs⟩] }

theorem test_wf_reference : cfgWf cfgRefA = true ∧ cfgWf cfgRefB = true ∧ cfgWf cfgA2 = true := by
  decide +kernel

theorem test_wf_refuses_length_field :
    cfgWf { cfgRefA with lenW := 0, lenMax := 0 } = false ∧ cfgWf { cfgRefA with lenW := 3 } = false ∧
      cfgWf { cfgRefA with lenMax := 256 } = false ∧ cfgWf { cfgRefA with lenMax := 255 } = true := by
  decide +kernel

theorem test_wf_refuses_algorithm :
    cfgWf { cfgRefA with alg := .vendor 12 0 } = false ∧ cfgWf { cfgRefA with alg := .vendor 32 0 } = true ∧
      algWf (.crc 8 0x107 0 false false 0) = false ∧ algWf (.crc 8 0x07 0x100 false false 0) = false ∧
      algWf (.crc 8 0x07 0 false false 0x100) = false ∧ algWf (.sum 16 0x10000 .id) = false := by
  decide +kernel

theorem test_wf_refuses_limits :
    cfgWf { cfgRefA with fwMax := 0, cat := [] } = false ∧ cfgWf { cfgRefA with fwMax := 256 } = false ∧
      cfgWf { cfgRefA with nfMax := 256 } = false := by
  decide +kernel

theorem test_wf_refuses_duplicate_opcode :
    cfgWf { cfgRefA with cat := [⟨0x51, "A", [], []⟩, ⟨0x51, "B", [], []⟩] } = false := by
  decide +kernel

theorem test_wf_refuses_too_many_entries :
    catWf 8 8 (List.replicate 257 ⟨0x51, "A", [], []⟩) = false := by
  decide +kernel

theorem test_wf_refuses_width :
    cfgWf (withFields [⟨"f", 0, 0, .rawInt⟩]) = false ∧
      cfgWf (withFields [⟨"f", 0, 9, .rawInt⟩]) = false ∧
      cfgWf (withFields [⟨"f", 0, 8, .rawInt⟩]) = true := by
  decide +kernel

theorem test_wf_refuses_labels :
    cfgWf (withFields [⟨"f", 0, 1, .bitmask (List.replicate 9 "l")⟩]) = false ∧
      cfgWf (withFields [⟨"f", 0, 1, .bitmask (List.replicate 8 "l")⟩]) = true := by
  decide +kernel

theorem test_wf_refuses_scale :
    cfgWf (withFields [⟨"f", 0, 2, .fixed 0⟩]) = false ∧
      cfgWf (withFields [⟨"f", 0, 2, .fixed (-1)⟩]) = false ∧
      cfgWf (withFields [⟨"f", 0, 2, .fixed tenth⟩]) = true := by
  decide +kernel

theorem test_wf_refuses_field_lists :
    cfgWf { withFields [⟨"f", 0, 1, .rawInt⟩, ⟨"g", 1, 1, .rawInt⟩] with nfMax := 1 } = false ∧
      cfgWf (withFields [⟨"f", 0, 1, .rawInt⟩, ⟨"f", 1, 1, .rawInt⟩]) = false := by
  decide +kernel

/-- V42-4: odd, but well formed. -/
theorem test_wf_accepts_odd_catalogs :
    cfgWf (withFields [⟨"far", 40, 2, .rawInt⟩, ⟨"over", 40, 2, .ascii⟩, ⟨"low", 0, 1, .rawInt⟩]) = true := by
  decide +kernel

theorem test_wf_instruction :
    Instr.wf cfgRefA .wireTestInts = true ∧ Instr.wf { cfgRefA with cat := [] } .wireTestInts = false ∧
      Instr.wf { cfgRefA with cat := [] } (.push 0x52) = true := by
  decide +kernel

/-! ## Decoding: words written out bit by bit (R83, R85, R180) -/

theorem test_decode_nop : decodeTableWord 16 0b0000_00000000 = some .nop := by decide
theorem test_decode_rst : decodeTableWord 16 0b0001_00000000 = some .rst := by decide
theorem test_decode_flush : decodeTableWord 16 0b0010_00000000 = some .flush := by decide
theorem test_decode_push : decodeTableWord 16 0b0011_10100101 = some (.push 0xA5) := by decide
theorem test_decode_xdec : decodeTableWord 16 0b0100_11111111 = some (.xdec 0xFF) := by decide
theorem test_decode_ginit : decodeTableWord 16 0b0101_00000000 = some .ginit := by decide
theorem test_decode_gbyte : decodeTableWord 16 0b0110_01010001 = some (.gbyte 0x51) := by decide
theorem test_decode_reserved7 : decodeTableWord 16 0b0111_00000000 = some .reserved7 := by decide
theorem test_decode_reserved8 : decodeTableWord 16 0b1000_00000000 = some .reserved8 := by decide
theorem test_decode_reserved9 : decodeTableWord 16 0b1001_00000000 = some .reserved9 := by decide
theorem test_decode_reservedA : decodeTableWord 16 0b1010_00000000 = some .reservedA := by decide
theorem test_decode_reservedB : decodeTableWord 16 0b1011_00000000 = some .reservedB := by decide
theorem test_decode_reservedC : decodeTableWord 16 0b1100_00000000 = some .reservedC := by decide
theorem test_decode_reservedD : decodeTableWord 16 0b1101_00000000 = some .reservedD := by decide
theorem test_decode_reservedE : decodeTableWord 16 0b1110_00000000 = some .reservedE := by decide
theorem test_decode_reservedF : decodeTableWord 16 0b1111_11111111 = some .reservedF := by decide
theorem test_decode_wireQueryStatus : decodeTableWord 8 0b01010001 = some .wireQueryStatus := by decide
theorem test_decode_wireTestInts : decodeTableWord 8 0b01010010 = some .wireTestInts := by decide
theorem test_decode_wireTestFlags : decodeTableWord 8 0b01010011 = some .wireTestFlags := by decide
theorem test_decode_wireTestEmpty : decodeTableWord 8 0b01010100 = some .wireTestEmpty := by decide

/-- V60-2: an ignored argument (R84). -/
theorem test_decode_ignored_argument :
    decodeTableWord 16 0x0AB = some .nop ∧ decodeTableWord 16 0x1FF = some .rst ∧
      decodeTableWord 16 0x2FF = some .flush ∧ decodeTableWord 16 0x5FF = some .ginit := by decide

theorem test_decode_other_width :
    decodeTableWord 32 0x300 = none ∧ inputOfWord 32 0x300 = .error (.noSuchFormat 32) := by
  exact ⟨by decide, rfl⟩

/-- R87: the assembler spelling. -/
theorem test_asm_line : Instr.asmLine (.push 0xA5) = some "PUSH 0xA5" := by decide +kernel

/-! ## One step: expected values from 95_test_vectors.md -/

/-- V70-1. -/
theorem test_reset : State.reset.status = 0x0200 ∧ State.reset.gck = 0xFFFF ∧ State.reset.acc = 0xFFFF := by
  decide +kernel

theorem test_first_step_runs_placed_word :
    goesTo (step (State.reset.withFetchWord 16 0x3A5)) (fun t => t.st == .opc && t.acc == 0x04BF) = true := by
  decide +kernel

theorem test_nop : goesTo (exec .nop held2) (fun t => t.status == 0x0055 && t.out == ⟨.none, none⟩) = true := by
  decide +kernel

/-- V70-2. -/
theorem test_rst :
    goesTo (exec .rst held2) (fun t =>
      t.status == 0x0200 && t.opc == 0 && t.len == 0 && t.trl == 0 && t.pbuf == bufOf pay2) = true := by
  decide +kernel

/-- Program P2 step 16. -/
theorem test_flush :
    goesTo (exec .flush { held2 with ovr := true }) (fun t =>
      t.status == 0x0200 && t.acc == 0xFFFF && t.opc == 0x51 && t.len == 4 && t.trl == 0xDAE5) = true := by
  decide +kernel

/-- Program P2 step 11. -/
theorem test_push_completes_frame :
    goesTo (exec (.push 0xDA) (inTrl cfgRefA 0x51 pay2 [0xE5])) (fun t =>
      t.out.ev == .frameOk && t.status == 0x0055 && t.fIdx == some 0 && t.payload == pay2.map some) = true := by
  decide +kernel

/-- V40-14 at byte 4: the length shifter is big-endian too. -/
theorem test_push_malformed :
    goesTo (exec (.push 0x2D) (inLen { cfgA2 with bo := .be } 0x51 [0x01])) (fun t =>
      t.out.ev == .malformed && t.len == 301 && t.acc == 0x7DF3 && t.status == 0x0280) = true := by
  decide +kernel

/-- V43-1. -/
theorem test_xdec :
    goesTo (exec (.xdec 0) held2) (fun t =>
      t.out == ⟨.xOk, some [⟨"battery_voltage", .fixed, [0x09, 0x09], some 2313,
        .rational (mkRat 2313 10), some tenth, none⟩]⟩) = true := by
  decide +kernel

/-- V43-5: the sign extension. -/
theorem test_xdec_signed :
    goesTo (exec (.xdec 1) (inHold cfgRefA 0x52 [0x7F, 0x00, 0x80, 0x78, 0x56, 0x34, 0x12])) (fun t =>
      (t.out.xout.getD []).map FieldRecord.value ==
        [.int 127, .int (-32768), .int 305419896]) = true := by
  decide +kernel

theorem test_ginit : goesTo (exec .ginit { held2 with gacc := 0 }) (fun t => t.gacc == 0xFFFF) = true := by
  decide +kernel

/-- Program P1 step 3. -/
theorem test_gbyte :
    goesTo (exec (.gbyte 0x51) { held2 with gacc := 0x04BF }) (fun t =>
      t.gacc == 0xB550 && t.status == 0x0055) = true := by
  decide +kernel

/-- V60-1. -/
theorem test_reserved :
    ∀ i ∈ [Instr.reserved7, .reserved8, .reserved9, .reservedA, .reservedB, .reservedC, .reservedD,
        .reservedE, .reservedF],
      goesTo (exec i held2) (fun t => t.out.ev == .illegalOp && t.status == 0x0055) = true := by
  decide +kernel

/-- Program P2 step 4. -/
theorem test_wireQueryStatus :
    goesTo (exec .wireQueryStatus (inOpc cfgRefA)) (fun t => t.opc == 0x51 && t.acc == 0xB550) = true := by
  decide +kernel

/-- Program H3 step 2. -/
theorem test_wireTestInts :
    goesTo (exec .wireTestInts (inOpc cfgRefA)) (fun t => t.opc == 0x52 && t.acc == 0x8533) = true := by
  decide +kernel

theorem test_wireTestFlags :
    goesTo (exec .wireTestFlags (inOpc cfgRefA)) (fun t => t.opc == 0x53 && t.st == .len) = true := by
  decide +kernel

/-- Program P3 step 11. -/
theorem test_wireTestEmpty :
    goesTo (exec .wireTestEmpty (inOpc cfgRefA)) (fun t => t.opc == 0x54 && t.acc == 0xE5F5) = true := by
  decide +kernel

/-- V30-2 and V30-17. -/
theorem test_encode_frame :
    encodeFrame cfgRefA 0x51 pay2 = [0xA5, 0x51, 0x04, 0x00, 0x00, 0x09, 0x09, 0xE5, 0xDA] ∧
      encodeFrame cfgABE 0x51 [0x00, 0x00, 0x09, 0x03] =
        [0xA5, 0x51, 0x04, 0x00, 0x00, 0x09, 0x03, 0x7B, 0xAF] := by
  decide +kernel

/-! ## Witnesses: a state and operands that meet the hypotheses of each statement -/

/-- The invariant holds with a frame held. -/
theorem held2_inv : Inv held2 where
  config := by decide +kernel
  bufferForm := by decide +kernel
  bufferRange := by
    intro a h
    have h32 : 32 ≤ a := h
    have hb : held2.pbuf = [(0, 0x00), (1, 0x00), (2, 0x09), (3, 0x09)] := by decide +kernel
    rw [hb]
    simp only [Memory.read]
    split_ifs <;> first | omega | rfl
  trlFits := by unfold FitsAlg; decide +kernel
  accFits := by change _ < _; decide +kernel
  gaccFits := by change _ < _; decide +kernel
  position := by change _ ∧ _; decide +kernel
  payload := ⟨pay2, rfl, by change _ = _; decide +kernel⟩
  held := fun _ => by decide +kernel
  resHeld := by decide +kernel
  outForm := by decide +kernel

theorem witness_RstResetsEveryRegister : ∃ t, exec .rst held2 = .next t ∧ (t.status == 0x0200) = true :=
  goesTo_elim (by decide +kernel)

theorem witness_PushHuntingTakesOnlyTheMarker :
    State.reset.st = .hunt ∧ (0x00 : Byte) ≠ State.reset.cfg.sof ∧ (0xA5 : Byte) = State.reset.cfg.sof := by
  decide +kernel

theorem witness_PushTakesTheOpcodeByte : (inOpc cfgRefA).st = .opc := by decide +kernel

/-- The first of two bytes; 301 = `LEN_MAX` + 1; zero; 300 = `LEN_MAX`. -/
theorem witness_PushTakesALengthByte :
    ((inLen cfgA2 0x51 []).st = .len ∧ (inLen cfgA2 0x51 []).cnt.toNat + 1 < cfgA2.lenW) ∧
    ((inLen cfgA2 0x51 [0x2D]).st = .len ∧ cfgA2.lenW ≤ (inLen cfgA2 0x51 [0x2D]).cnt.toNat + 1 ∧
      cfgA2.lenMax < (shiftIn .le (inLen cfgA2 0x51 [0x2D]).len 1 0x01).toNat) ∧
    (cfgRefA.lenW ≤ (inLen cfgRefA 0x51 []).cnt.toNat + 1 ∧
      shiftIn .le (inLen cfgRefA 0x51 []).len 0 0x00 = 0) ∧
    (cfgA2.lenW ≤ (inLen cfgA2 0x51 [0x2C]).cnt.toNat + 1 ∧
      (shiftIn .le (inLen cfgA2 0x51 [0x2C]).len 1 0x01).toNat = cfgA2.lenMax ∧
      shiftIn .le (inLen cfgA2 0x51 [0x2C]).len 1 0x01 ≠ 0) := by
  decide +kernel

/-- The last byte of a payload of `LEN_MAX` bytes; the first of it. -/
theorem witness_PushStoresAPayloadByte :
    let s := inPay cfgRefA 0x51 32 (List.replicate 31 0x00)
    let r := inPay cfgRefA 0x51 32 []
    (s.st = .pay ∧ s.cnt.toNat < s.len.toNat ∧ s.len.toNat ≤ s.cfg.lenMax ∧
      s.cnt.toNat + 1 = s.len.toNat) ∧
    (r.st = .pay ∧ r.cnt.toNat < r.len.toNat ∧ r.len.toNat ≤ r.cfg.lenMax ∧
      r.cnt.toNat + 1 ≠ r.len.toNat) := by
  decide +kernel

/-- A first trailer byte; a wrong trailer; a right one with no entry; a right one with an entry. -/
theorem witness_PushTakesATrailerByte :
    let s := inTrl cfgRefA 0x51 pay2 []
    let s1 := inTrl cfgRefA 0x51 pay2 [0xE5]
    let u := inTrl cfgRefA 0x60 [0x01] [0x88]
    (s.st = .trl ∧ s.cnt.toNat + 1 < trlW s.cfg) ∧
    (s1.st = .trl ∧ trlW s1.cfg ≤ s1.cnt.toNat + 1 ∧ trlShifted s1 0xDB ≠ algFin s1.cfg.alg s1.acc) ∧
    (u.st = .trl ∧ trlW u.cfg ≤ u.cnt.toNat + 1 ∧ trlShifted u 0x6A = algFin u.cfg.alg u.acc ∧
      lookup u.cfg.cat u.opc = none) ∧
    (trlShifted s1 0xDA = algFin s1.cfg.alg s1.acc ∧ (lookup s1.cfg.cat s1.opc).isSome = true) := by
  decide +kernel

theorem witness_PushWhileHeldIsOverrun : held2.st = .hold := by decide +kernel

/-- Nothing held; the first index that is too large; a payload one byte short. -/
theorem witness_XdecTurnedAwayInOrder :
    State.reset.st ≠ .hold ∧ (held2.st = .hold ∧ held2.cfg.ncmd = (0x04 : Byte).toNat) ∧
    ∃ e, (inHold cfgRefA 0x51 [0x00, 0x00, 0x09]).cfg.cat[(0x00 : Byte).toNat]? = some e ∧
      (inHold cfgRefA 0x51 [0x00, 0x00, 0x09]).st = .hold ∧
      (inHold cfgRefA 0x51 [0x00, 0x00, 0x09]).len.toNat + 1 = need e := by
  refine ⟨by decide +kernel, by decide +kernel, _, rfl, by decide +kernel, by decide +kernel⟩

/-- A payload that is exactly long enough. -/
theorem witness_XdecDeliversEveryField :
    ∃ e, held2.cfg.cat[(0x00 : Byte).toNat]? = some e ∧ held2.st = .hold ∧ need e = held2.len.toNat ∧
      (∀ d ∈ e.fields, 1 ≤ d.width) ∧
      ∀ i, i < held2.len.toNat → (Memory.read held2.pbuf i).isSome = true := by
  refine ⟨_, rfl, by decide +kernel, by decide +kernel, by decide +kernel, by decide +kernel⟩

/-- The two sides of the sign bit, and the highest flag. -/
theorem witness_TransformsGiveTheirRecords :
    ([0x7F] : List Byte) ≠ [] ∧ asm .le [0xFF, 0x7F] + 1 = 2 ^ 15 ∧ asm .le [0x00, 0x80] = 2 ^ 15 ∧
      setBits 16 (asm .le [0x01, 0x80]) = [0, 15] := by
  decide +kernel

theorem witness_ReservedCodesAreIllegalOps :
    7 ≤ (opField 0x700).toNat ∧ 7 ≤ (opField 0xFFF).toNat ∧
      Instr.reservedF ∈ [Instr.reserved7, Instr.reserved8, Instr.reserved9, Instr.reservedA, Instr.reservedB,
        Instr.reservedC, Instr.reservedD, Instr.reservedE, Instr.reservedF] := by
  decide

theorem witness_WireOpcodesAreFrameByteOne :
    (Instr.wireTestEmpty, 0x54#8) ∈ [(Instr.wireQueryStatus, 0x51#8), (Instr.wireTestInts, 0x52#8),
      (Instr.wireTestFlags, 0x53#8), (Instr.wireTestEmpty, 0x54#8)] ∧ (inOpc cfgRefA).st = .opc := by
  decide +kernel

/-- A count at `LEN_MAX`; a second field whose byte is unwritten, after a written one; a second field of width 0;
and a state of the invariant in `HOLD`. Only the last is one that a run reaches. -/
theorem witness_BufferFaultsOutsideReachableStates :
    let f : FieldDesc := ⟨"f", 0, 1, .rawInt⟩
    let g : FieldDesc := ⟨"g", 1, 1, .rawInt⟩
    let z : FieldDesc := ⟨"z", 1, 0, .rawInt⟩
    let s (d : FieldDesc) : State :=
      { State.resetWith (withFields [f, d]) with st := .hold, len := 2, pbuf := [(0, 0x07)] }
    ((inPay cfgRefA 0x51 32 (List.replicate 32 0x00)).st = .pay ∧
      cfgRefA.lenMax = (inPay cfgRefA 0x51 32 (List.replicate 32 0x00)).cnt.toNat) ∧
    (∀ d ∈ [g, z], ∃ e, (s d).st = .hold ∧ (s d).cfg.cat[(0x00 : Byte).toNat]? = some e ∧
      need e ≤ (s d).len.toNat ∧ e.fields = [f] ++ d :: []) ∧
    (∀ i, i < f.width → (Memory.read (s g).pbuf (f.offset + i)).isSome = true) ∧
    (z.width = 0 ∧ Memory.read (s g).pbuf (g.offset + 0) = none ∧ 0 < g.width) ∧
    Inv held2 ∧ held2.st = .hold := by
  refine ⟨by decide +kernel, ?_, by decide +kernel, by decide +kernel, held2_inv, by decide +kernel⟩
  exact List.forall_mem_cons.2 ⟨⟨_, rfl, rfl, by decide +kernel, rfl⟩,
    List.forall_mem_cons.2 ⟨⟨_, rfl, rfl, by decide +kernel, rfl⟩, nofun⟩⟩

theorem witness_DecodeAndEncodeAgree :
    opField 0x3A5 = 0x3 ∧ opField 0x4FF = 0x4 ∧ opField 0x600 = 0x6 ∧
      ¬(opField 0x7FF = 0x3 ∨ opField 0x7FF = 0x4 ∨ opField 0x7FF = 0x6) := by
  decide

/-- A command word and a raw wire byte. -/
theorem witness_StepRunsTheDecodedInstruction :
    cfgWf cfgRefA = true ∧ decodeInput (.command 0x3A5) = some (.push 0xA5) ∧
      decodeInput (.wire 0x51) = some .wireQueryStatus ∧
      ({ held2 with port := [.command 0x3A5, .wire 0x51] } : State).port =
        .command 0x3A5 :: [.wire 0x51] := by
  decide +kernel

theorem witness_PlacedWordRunsNext : cfgWf held2.cfg = true := by decide +kernel

theorem witness_NothingHappensBetweenOperations : cfgWf held2.cfg = true ∧ held2.port = [] := by
  decide +kernel

theorem witness_HardwareResetGivesTheResetState :
    cfgWf held2.cfg = true ∧
      ({ held2 with port := [.hardwareReset, .command 0] } : State).port = .hardwareReset :: [.command 0] := by
  decide +kernel

theorem witness_IllFormedConfigurationIsRefused :
    cfgWf (State.resetWith { cfgRefA with fwMax := 0 }).cfg = false := by
  decide +kernel

theorem witness_FrameOutputsOnlyWhileHeld : State.reset.st ≠ .hold ∧ Inv held2 ∧ held2.st = .hold :=
  ⟨by decide +kernel, held2_inv, by decide +kernel⟩

/-- One transition for each row of the table, at the boundary lengths and counts. -/
theorem witness_SequencerMovesByTheTable :
    goesTo (exec (.push 0x00) State.reset) (fun t => t.st == .hunt) = true ∧
    goesTo (exec (.push 0xA5) State.reset) (fun t => t.st == .opc) = true ∧
    goesTo (exec (.push 0x60) (inOpc cfgRefA)) (fun t => t.st == .len) = true ∧
    goesTo (exec (.push 0x2D) (inLen cfgA2 0x51 [])) (fun t => t.st == .len) = true ∧
    goesTo (exec (.push 0x21) (inLen cfgRefA 0x51 [])) (fun t => t.len.toNat == 33 && t.st == .hunt) = true ∧
    goesTo (exec (.push 0x00) (inLen cfgRefA 0x51 [])) (fun t => t.len.toNat == 0 && t.st == .trl) = true ∧
    goesTo (exec (.push 0x20) (inLen cfgRefA 0x51 [])) (fun t => t.len.toNat == 32 && t.st == .pay) = true ∧
    goesTo (exec (.push 0x00) (inPay cfgRefA 0x51 2 [])) (fun t => t.st == .pay) = true ∧
    goesTo (exec (.push 0x00) (inPay cfgRefA 0x51 1 [])) (fun t => t.st == .trl) = true ∧
    goesTo (exec (.push 0xE5) (inTrl cfgRefA 0x51 pay2 [])) (fun t => t.st == .trl) = true ∧
    goesTo (exec (.push 0xDB) (inTrl cfgRefA 0x51 pay2 [0xE5])) (fun t => t.out.ev == .integrityMismatch) = true ∧
    goesTo (exec (.push 0x6A) (inTrl cfgRefA 0x60 [0x01] [0x88])) (fun t => t.out.ev == .unknownCmd) = true ∧
    goesTo (exec (.push 0xDA) (inTrl cfgRefA 0x51 pay2 [0xE5])) (fun t => t.out.ev == .frameOk) = true ∧
    goesTo (exec (.push 0xA5) held2) (fun t => t.out.ev == .overrun) = true ∧
    goesTo (exec .rst held2) (fun t => t.st == .hunt) = true ∧
    goesTo (exec (.xdec 0) held2) (fun t => t.st == .hold) = true := by
  decide +kernel

/-- A next state with each of the events that the statement speaks of. -/
theorem witness_StickyFlagsFollowTheirEvents :
    (∃ t, exec (.push 0xDA) (inTrl cfgRefA 0x51 pay2 [0xE5]) = .next t ∧ (t.out.ev == .frameOk) = true) ∧
    (∃ t, exec (.push 0x21) (inLen cfgRefA 0x51 []) = .next t ∧ (t.out.ev == .malformed) = true) ∧
    (∃ t, exec (.push 0x6A) (inTrl cfgRefA 0x60 [0x01] [0x88]) = .next t ∧
      (t.out.ev == .unknownCmd) = true) ∧
    (∃ t, exec (.push 0xDB) (inTrl cfgRefA 0x51 pay2 [0xE5]) = .next t ∧
      (t.out.ev == .integrityMismatch) = true) ∧
    (∃ t, exec .flush held2 = .next t ∧ (t.out.ev == .none) = true) ∧
    (∃ t, exec (.push 0x00) held2 = .next t ∧ (t.out.ev == .overrun) = true) ∧
    ∃ t, exec .nop held2 = .next t ∧ (t.out.ev == .none) = true :=
  ⟨goesTo_elim (by decide +kernel), goesTo_elim (by decide +kernel), goesTo_elim (by decide +kernel),
    goesTo_elim (by decide +kernel), goesTo_elim (by decide +kernel), goesTo_elim (by decide +kernel),
    goesTo_elim (by decide +kernel)⟩

/-- A generator operation and a receiving one. -/
theorem witness_ReceiveAndGeneratorAreDisjoint :
    (∃ t, exec (.gbyte 0xA5) held2 = .next t ∧ (t.gacc != held2.gacc) = true) ∧
    ∃ t, exec (.push 0xA5) State.reset = .next t ∧ (t.st == .opc) = true :=
  ⟨goesTo_elim (by decide +kernel), goesTo_elim (by decide +kernel)⟩

/-- A byte stored over a written cell's neighbour, and an operation that stores nothing. -/
theorem witness_BufferWrittenOnlyByPayloadBytes :
    (∃ t, exec (.push 0x09) (inPay cfgRefA 0x51 4 [0x00, 0x00]) = .next t ∧
      (Memory.read t.pbuf 2 == some 0x09) = true) ∧
    ∃ t, exec .rst held2 = .next t ∧ (t.pbuf == held2.pbuf) = true :=
  ⟨goesTo_elim (by decide +kernel), goesTo_elim (by decide +kernel)⟩

/-- The events of XDEC and of a reserved code; the events of PUSH are in the witness above. -/
theorem witness_EventsComeFromTheirOperations :
    (∃ t, exec (.xdec 0) held2 = .next t ∧ (t.out.ev == .xOk) = true) ∧
    (∃ t, exec (.xdec 1) held2 = .next t ∧ (t.out.ev == .fieldOutOfRange) = true) ∧
    (∃ t, exec (.xdec 4) held2 = .next t ∧ (t.out.ev == .badSel) = true) ∧
    (∃ t, exec (.xdec 255) State.reset = .next t ∧ (t.out.ev == .notHeld) = true) ∧
    ∃ t, exec .reservedF held2 = .next t ∧ (t.out.ev == .illegalOp) = true :=
  ⟨goesTo_elim (by decide +kernel), goesTo_elim (by decide +kernel), goesTo_elim (by decide +kernel),
    goesTo_elim (by decide +kernel), goesTo_elim (by decide +kernel)⟩

theorem witness_ConfigurationIsConstant :
    ∃ t, step { held2 with port := [.command 0x1FF] } = .next t ∧ (t.status == 0x0200) = true :=
  goesTo_elim (by decide +kernel)

/-- Program P2 step 12. -/
theorem witness_XdecIsPureAndRepeatable :
    ∃ t, exec (.xdec 0) held2 = .next t ∧ (t.out.xout.isSome) = true :=
  goesTo_elim (by decide +kernel)

theorem witness_AsmAndSerAreInverse : 1 < 2 ∧ 0xFFFF < 2 ^ (8 * 2) := by decide

theorem witness_ShifterAssemblesBytes : 8 * ([0x2D, 0x01] : List Byte).length ≤ 16 := by decide

theorem witness_ChecksumsFitTheirWidth :
    algWf algRefA = true ∧ algWf algRefB = true ∧ algWf (.vendor 32 0) = true ∧
      AccFits algRefA 0xFFFF ∧ AccFits (.vendor 8 0) (2 ^ 40) :=
  ⟨by decide +kernel, by decide +kernel, by decide +kernel, by change _ < _; decide, trivial⟩

theorem witness_TableDrivenCrcIsTheLoop : (32 : Nat) = 8 ∨ (32 : Nat) = 16 ∨ (32 : Nat) = 32 := by decide

theorem witness_SumDetectsAnyChangedByte :
    algWf (.sum 8 0xFF .neg) = true ∧ algWf (.sum 32 0xFFFFFFFF .inv) = true := by
  decide +kernel

theorem witness_OddCrcDetectsAnyChangedByte :
    algWf (.crc 8 0x07 0x00 true false 0xFF) = true ∧ (0x07 : AlgWord).getLsbD 0 = true ∧
      algWf (.crc 32 0x04C11DB7 0xFFFFFFFF true true 0xFFFFFFFF) = true ∧
      (0x04C11DB7 : AlgWord).getLsbD 0 = true := by
  decide +kernel

/-- The first and the last entry of `CAT_REF`, and an opcode of none (V42-1). -/
theorem witness_LookupFindsTheOneEntry :
    catWf 8 8 catRef = true ∧ lookup catRef 0x51 = some 0 ∧ lookup catRef 0x54 = some 3 ∧
      lookup catRef 0x55 = none := by
  decide +kernel

/-- V42-2. -/
theorem witness_NeedIsTheLargestFieldEnd : catRef.map need = [4, 7, 7, 0] := by decide +kernel

theorem witness_InvariantHoldsAtReset : cfgWf cfgRefB = true := by decide +kernel

theorem witness_EveryStepKeepsTheInvariant :
    Inv held2 ∧ ∃ t, step held2 = .next t ∧ (t.st == .hold) = true :=
  ⟨held2_inv, goesTo_elim (by decide +kernel)⟩

theorem witness_EveryOperationIsTotal : Inv held2 := held2_inv

/-- An empty payload and one of `LEN_MAX` bytes. -/
theorem witness_EncodedFramesAreValid :
    cfgWf cfgRefA = true ∧ ([] : List Byte).length ≤ cfgRefA.lenMax ∧
      (List.replicate 32 (0x00 : Byte)).length = cfgRefA.lenMax := by
  decide +kernel

/-- V30-1, of a known opcode, and V30-10, of an unknown one. -/
theorem witness_ValidFrameGivesOneVerdict :
    cfgWf State.reset.cfg = true ∧ State.reset.st = .hunt ∧
      (frameWf cfgRefA [0xA5, 0x51, 0x00, 0x7E, 0xA7] = true ∧
        (lookup catRef (frameOpcode [0xA5, 0x51, 0x00, 0x7E, 0xA7])).isSome = true) ∧
      (frameWf cfgRefA [0xA5, 0x60, 0x01, 0x01, 0x88, 0x6A] = true ∧
        lookup catRef (frameOpcode [0xA5, 0x60, 0x01, 0x01, 0x88, 0x6A]) = none) := by
  decide +kernel

theorem witness_EncodedFrameRoundTrip :
    ∃ e, State.reset.cfg.cat[3]? = some e ∧ cfgWf State.reset.cfg = true ∧ State.reset.st = .hunt ∧
      (List.replicate 32 (0x00 : Byte)).length = State.reset.cfg.lenMax := by
  refine ⟨_, rfl, by decide +kernel, by decide +kernel, by decide +kernel⟩

/-- V30-2: a payload of exactly `need` bytes, whose field is `ser` of 2313. -/
theorem witness_FieldRoundTrip :
    ∃ e d, State.reset.cfg.cat[(0x00 : Byte).toNat]? = some e ∧ cfgWf State.reset.cfg = true ∧
      State.reset.st = .hunt ∧ need e = pay2.length ∧ pay2.length ≤ State.reset.cfg.lenMax ∧
      e.fields[0]? = some d ∧ d.transform ≠ .ascii ∧ 2313 < 2 ^ (8 * d.width) ∧
      (pay2.drop d.offset).take d.width = ser .le 2313 d.width := by
  refine ⟨_, _, rfl, ?_, ?_, ?_, ?_, rfl, ?_, ?_, ?_⟩ <;> decide +kernel

theorem witness_LeadingGarbageIsIgnored :
    State.reset.st = .hunt ∧ (∀ b ∈ [(0x00 : Byte), 0xFF], b ≠ State.reset.cfg.sof) ∧
      ([0xA5, 0x51] : List Byte) ≠ [] ∧ ∃ t rs, RunsTo (pushs [0xA5, 0x51]) State.reset t rs :=
  ⟨by decide +kernel, by decide +kernel, by decide, runs_elim (by decide +kernel)⟩

theorem witness_StreamingDecodesTheBuffer : cfgWf State.reset.cfg = true ∧ State.reset.st = .hunt := by
  decide +kernel

/-- REF-B adds bytes modulo 256, so it detects a changed byte. -/
theorem algRefB_detects : AlgDetectsByte algRefB := by
  have hm : mask 8 = 0xFF#32 := by decide
  have hs : ∀ (s : List Byte) (a : Nat), a < 256 →
      absorbAll algRefB a s = (a + (s.map BitVec.toNat).sum) % 256 := by
    intro s
    induction s with
    | nil =>
      intro a ha
      simp [absorbAll, Nat.mod_eq_of_lt ha]
    | cons b s ih =>
      intro a ha
      have hb := b.isLt
      have h1 : algAbsorb algRefB a b = (a + b.toNat) % 256 := by
        simp only [algRefB, algAbsorb, sumAbsorb, hm]
        rw [BitVec.toNat_and, BitVec.toNat_add, BitVec.toNat_setWidth, BitVec.toNat_ofNat]
        rw [show (0xFF#32).toNat = 2 ^ 8 - 1 from rfl, Nat.and_two_pow_sub_one_eq_mod]
        omega
      have h2 := ih (algAbsorb algRefB a b) (by omega)
      rw [h1] at h2
      simp only [absorbAll, List.foldl_cons, List.map_cons, List.sum_cons, h1] at *
      omega
  intro u v x y hxy h
  have h1 := hs (u ++ x :: v) 0 (by decide)
  have h2 := hs (u ++ y :: v) 0 (by decide)
  have hi : algInit algRefB = 0 := by decide
  have h3 := congrArg BitVec.toNat h
  simp only [checksum, hi, h1, h2] at h3
  simp only [algRefB, algFin, sumFin, BitVec.toNat_ofNat] at h3
  apply hxy
  apply BitVec.eq_of_toNat_eq
  have := x.isLt
  have := y.isLt
  simp at h3
  omega

/-- V30-14 under `CFG_REF_B`: the opcode, the first and the last payload byte, the trailer. -/
theorem witness_ChangedOpcodePayloadOrTrailerByteIsRejected :
    let s := State.resetWith cfgRefB
    let f : List Byte := [0xA5, 0x51, 0x04, 0x00, 0x00, 0x09, 0x09, 0x0C]
    AlgDetectsByte s.cfg.alg ∧ cfgWf s.cfg = true ∧ s.st = .hunt ∧ frameWf s.cfg f = true ∧
      (∀ i ∈ [1, 3, 6, 7], i < f.length ∧ f[i]? ≠ some (0xFF : Byte)) ∧
      2 + s.cfg.lenW = 3 ∧ 2 + s.cfg.lenW + frameLen s.cfg f = 7 ∧ f.length - trlW s.cfg = 7 :=
  ⟨algRefB_detects, by decide +kernel, by decide +kernel, by decide +kernel, by decide +kernel,
    by decide +kernel, by decide +kernel, by decide +kernel⟩

/-- A generator sequence with a received byte between its bytes (V41-8). -/
theorem witness_GeneratorComputesTheChecksum :
    (∀ i ∈ [Instr.gbyte 0xA5, .push 0xA5, .gbyte 0x51], i ≠ .rst ∧ i ≠ .ginit) ∧
      ∃ t rs, RunsTo (.ginit :: [.gbyte 0xA5, .push 0xA5, .gbyte 0x51]) State.reset t rs :=
  ⟨by decide, runs_elim (by decide +kernel)⟩

theorem witness_FlushAndRstLookAlike :
    (∀ i ∈ [Instr.push 0xA5, .xdec 0], isReceive i = true) ∧
      (∃ f, exec .flush held2 = .next f ∧ runs [.push 0xA5, .xdec 0] f = true) ∧
      ∃ r, exec .rst held2 = .next r ∧ (r.st == .hunt) = true :=
  ⟨by decide, goesTo_elim (by decide +kernel), goesTo_elim (by decide +kernel)⟩

/-- A held frame of four bytes, and the same with a stale fifth cell. -/
theorem witness_StaleBytesAreUnobservable :
    let s' : State := { held2 with pbuf := bufOf (pay2 ++ [0xEE]) }
    Inv held2 ∧ SameButBuffer held2 s' ∧ SameFrameBytes held2 s' ∧ held2.pbuf ≠ s'.pbuf ∧
      ∃ t rs, RunsTo [.xdec 0, .flush, .xdec 0] held2 t rs :=
  ⟨held2_inv, rfl, by change ∀ a, a < 4 → _; decide +kernel, by decide +kernel,
    runs_elim (by decide +kernel)⟩

/-- Held payloads of four and of five bytes that agree on the field's two bytes and differ in the gap before it
and beyond it. -/
theorem witness_BytesBeyondNeedAreIgnored :
    let s' : State := inHold cfgRefA 0x53 [0x11, 0x22, 0x09, 0x09, 0xEE]
    ∃ e, held2.cfg.cat[(0x00 : Byte).toNat]? = some e ∧ held2.st = .hold ∧ s'.st = .hold ∧
      s'.cfg = held2.cfg ∧ need e = held2.len.toNat ∧ need e ≤ s'.len.toNat ∧
      (∀ d ∈ e.fields, ∀ i, i < d.width →
        Memory.read s'.pbuf (d.offset + i) = Memory.read held2.pbuf (d.offset + i)) ∧
      ∃ t, exec (.xdec 0) held2 = .next t ∧ (t.out.ev == .xOk) = true := by
  refine ⟨_, rfl, ?_, ?_, ?_, ?_, ?_, ?_, goesTo_elim ?_⟩ <;> decide +kernel

end Sys2Proof.Tests
end

section
/-! Scope of the block (spec 00_scope.md R3, R16, R17): what a step takes from the port, and what a well-formed
configuration is. -/

namespace Sys2Proof.Machine

open Sys2Proof

/-! ### Taking the next input -/

theorem take_of_port_nil {s : State} (hc : cfgWf s.cfg = true) (hp : s.port = []) : take s = .idle := by
  simp [take, hc, hp]

theorem take_of_decodeInput_some {s : State} {w : HostInput} {rest : List HostInput} {i : Instr}
    (hc : cfgWf s.cfg = true) (hp : s.port = w :: rest) (hd : decodeInput w = some i) :
    take s = .run i { s with port := rest } := by
  simp [take, hc, hp, hd]

theorem take_of_decodeInput_none {s : State} {w : HostInput} {rest : List HostInput}
    (hc : cfgWf s.cfg = true) (hp : s.port = w :: rest) (hd : decodeInput w = none) :
    take s = .reset (hardwareReset { s with port := rest }) := by
  simp [take, hc, hp, hd]

theorem take_of_not_cfgWf {s : State} (hc : cfgWf s.cfg = false) : take s = .refuse .illFormedConfig := by
  simp [take, hc]

/-! ### A step, by what it takes -/

theorem step_of_take_idle {s : State} (h : take s = .idle) : step s = .next s := by
  simp [step, h]

theorem step_of_take_run {s t : State} {i : Instr} (h : take s = .run i t) : step s = exec i t := by
  simp [step, h]

theorem step_of_take_reset {s t : State} (h : take s = .reset t) : step s = .next t := by
  simp [step, h]

theorem step_of_take_refuse {s : State} {r : Refusal} (h : take s = .refuse r) : step s = .refused r := by
  simp [step, h]

/-! ### Placing a command word -/

/-- Of the 16 bits that hold a command word, the port takes that word (log entry 11). -/
theorem inputOfWord_command (w : CmdWord) : inputOfWord 16 w.toNat = .ok (.command w) := by
  simp [inputOfWord]

theorem withFetchWord_command (s : State) (w : CmdWord) :
    s.withFetchWord 16 w.toNat = { s with port := .command w :: s.port.tail } := by
  simp [State.withFetchWord, placeWord, inputOfWord_command]

/-! ### Well-formedness, check by check -/

theorem fieldWf_iff (fwMax : Nat) (d : FieldDesc) :
    fieldWf fwMax d = true ↔
      1 ≤ d.width ∧ d.width ≤ fwMax ∧
        (∀ q, d.transform = .fixed q → 0 < q) ∧
        (∀ ls, d.transform = .bitmask ls → ls.length ≤ 8 * d.width) := by
  unfold fieldWf
  cases d.transform with
  | fixed q => simp [and_assoc, Rat.num_pos]
  | bitmask ls => simp [and_assoc]
  | rawInt => simp
  | signedInt => simp
  | ascii => simp

theorem entryWf_iff (fwMax nfMax : Nat) (e : CatEntry) :
    entryWf fwMax nfMax e = true ↔
      e.fields.length ≤ nfMax ∧ (e.fields.map FieldDesc.name).Nodup ∧
        ∀ d ∈ e.fields, fieldWf fwMax d = true := by
  simp only [entryWf, Bool.and_eq_true, decide_eq_true_eq, List.all_eq_true]
  tauto

theorem catWf_iff (fwMax nfMax : Nat) (cat : Catalog) :
    catWf fwMax nfMax cat = true ↔
      cat.length ≤ 256 ∧ (cat.map CatEntry.opcode).Nodup ∧ ∀ e ∈ cat, entryWf fwMax nfMax e = true := by
  simp only [catWf, Bool.and_eq_true, decide_eq_true_eq, List.all_eq_true, and_assoc]

/-- The three widths of R16 are within the word that holds a parameter. -/
theorem algW_le_of_legal {alg : Alg} (h : algW alg = 8 ∨ algW alg = 16 ∨ algW alg = 32) : algW alg ≤ 32 := by
  omega

/-- The model compares a parameter with itself masked to `W` bits; at a legal width that says it is a `W`-bit
number (R142, R143). -/
theorem algWf_iff (alg : Alg) :
    algWf alg = true ↔
      (algW alg = 8 ∨ algW alg = 16 ∨ algW alg = 32) ∧
        (∀ w poly init refin refout xorout, alg = .crc w poly init refin refout xorout →
          poly.toNat < 2 ^ w ∧ init.toNat < 2 ^ w ∧ xorout.toNat < 2 ^ w) ∧
        (∀ w init f, alg = .sum w init f → init.toNat < 2 ^ w) := by
  simp only [algWf, Bool.and_eq_true, Bool.or_eq_true, beq_iff_eq, or_assoc]
  refine and_congr_right fun hw => ?_
  have hle := algW_le_of_legal hw
  cases alg with
  | crc w poly init refin refout xorout =>
    have fits := and_mask_eq_iff_lt w hle
    simp only [Bool.and_eq_true, beq_iff_eq, fits, and_assoc]
    constructor
    · intro h
      exact ⟨by rintro _ _ _ _ _ _ ⟨⟩; exact h, nofun⟩
    · rintro ⟨h, -⟩
      exact h _ _ _ _ _ _ rfl
  | sum w init f =>
    have fits := and_mask_eq_iff_lt w hle
    simp [fits]
  | vendor w id => simp

theorem cfgWf_iff (c : Cfg) :
    cfgWf c = true ↔
      (c.lenW = 1 ∨ c.lenW = 2) ∧ c.lenMax < 2 ^ (8 * c.lenW) ∧ algWf c.alg = true ∧
        (1 ≤ c.fwMax ∧ c.fwMax ≤ 255 ∧ c.nfMax ≤ 255) ∧ catWf c.fwMax c.nfMax c.cat = true := by
  simp only [cfgWf, Bool.and_eq_true, Bool.or_eq_true, beq_iff_eq, decide_eq_true_eq, and_assoc]

/-! ### The obligations -/

/-- Settles O21: the port's first input is what `take` runs. -/
theorem stepRunsTheDecodedInstruction : Obligations.StepRunsTheDecodedInstruction := by
  intro s w rest i hc hp hd
  exact step_of_take_run (take_of_decodeInput_some hc hp hd)

/-- Settles O22: the word placed is the port's first input, and O21 says what the step does with it. -/
theorem placedWordRunsNext : Obligations.PlacedWordRunsNext := by
  intro s w hc
  rw [withFetchWord_command]
  exact stepRunsTheDecodedInstruction { s with port := .command w :: s.port.tail } (.command w) s.port.tail
    (decodeCommand w) hc rfl rfl

/-- Settles O23. -/
theorem nothingHappensBetweenOperations : Obligations.NothingHappensBetweenOperations := by
  intro s hc hp
  exact step_of_take_idle (take_of_port_nil hc hp)

/-- Settles O25: `cfgWf` opened check by check, and the refusal where it fails. -/
theorem illFormedConfigurationIsRefused : Obligations.IllFormedConfigurationIsRefused := by
  refine ⟨fun c => ?_, fun s hc => step_of_take_refuse (take_of_not_cfgWf hc)⟩
  simp only [cfgWf_iff, algWf_iff, catWf_iff, entryWf_iff, fieldWf_iff, Cfg.ncmd, and_assoc]

end Sys2Proof.Machine
end

section
/-! Operations (spec 10_state.md R20, R28, R29, R31): everything one operation can do, in one inversion lemma, and
what follows for the fields that few operations write. -/

namespace Sys2Proof.Machine

open Sys2Proof

/-! ### One operation -/

/-- The byte that an instruction gives to FDL (R104; log entry 9 for the FRAME rows). -/
def pushedByte : Instr → Option Byte
  | .push b => some b
  | .wireQueryStatus => some queryStatusOpcode
  | .wireTestInts => some testIntsOpcode
  | .wireTestFlags => some testFlagsOpcode
  | .wireTestEmpty => some testEmptyOpcode
  | _ => none

/-- What one operation makes of a state, by the operation: the rows that push a byte are one case, and so are the
reserved codes. `exec_next` ties it to `exec`. -/
inductive Effect : Instr → State → State → Prop where
  | nop (s : State) : Effect .nop s (raise .none s)
  | rst (s : State) : Effect .rst s (raise .none (resetRegisters s))
  | flush (s : State) : Effect .flush s (raise .none (flushFrame s))
  | push {i : Instr} {b : Byte} {s t : State} (hb : pushedByte i = some b) (h : pushByte b s = .next t) :
      Effect i s t
  | xdec {k : Byte} {s t : State} (h : execXdec k s = .next t) : Effect (.xdec k) s t
  | ginit (s : State) : Effect .ginit s (raise .none { s with gacc := algInit s.cfg.alg })
  | gbyte (b : Byte) (s : State) :
      Effect (.gbyte b) s (raise .none { s with gacc := algAbsorb s.cfg.alg s.gacc b })
  | reserved {i : Instr} (hi : isReserved i = true) (s : State) : Effect i s (raise .illegalOp s)

theorem exec_of_pushedByte {i : Instr} {b : Byte} (s : State) (hb : pushedByte i = some b) :
    exec i s = pushByte b s := by
  cases i <;> cases hb <;> rfl

theorem exec_of_isReserved {i : Instr} (s : State) (hi : isReserved i = true) :
    exec i s = .next (raise .illegalOp s) := by
  cases i <;> cases hi <;> rfl

/-- Everything one operation can do. -/
theorem exec_next {i : Instr} {s t : State} : exec i s = .next t ↔ Effect i s t := by
  constructor
  · intro h
    cases i with
    | nop => cases h; exact .nop s
    | rst => cases h; exact .rst s
    | flush => cases h; exact .flush s
    | push b => exact .push rfl h
    | xdec k => exact .xdec h
    | ginit => cases h; exact .ginit s
    | gbyte b => cases h; exact .gbyte b s
    | wireQueryStatus | wireTestInts | wireTestFlags | wireTestEmpty => exact .push rfl h
    | reserved7 | reserved8 | reserved9 | reservedA | reservedB | reservedC | reservedD | reservedE
    | reservedF => cases h; exact .reserved rfl s
  · intro h
    cases h with
    | push hb h => rw [exec_of_pushedByte s hb, h]
    | xdec h => exact h
    | reserved hi => exact exec_of_isReserved s hi
    | nop | rst | flush | ginit | gbyte => rfl

/-- XDEC writes the result only, so it leaves any field but `out` alone. -/
theorem execXdec_eq {k : Byte} {s t : State} (h : execXdec k s = .next t) : t = { s with out := t.out } :=
  (execXdec_frame h).1

/-! ### The configuration -/

theorem exec_cfg {i : Instr} {s t : State} (h : exec i s = .next t) : t.cfg = s.cfg := by
  cases exec_next.1 h with
  | push hb h => exact (pushByte_frame h).1
  | xdec h => rw [execXdec_eq h]
  | nop | rst | flush | ginit | gbyte | reserved => simp

/-- Settles O34: an operation leaves `cfg`, and so do the hardware reset and a step with nothing to apply. -/
theorem configurationIsConstant : Obligations.ConfigurationIsConstant := by
  intro s t h
  obtain ⟨-, ⟨-, rfl⟩ | ⟨w, rest, -, ⟨-, rfl⟩ | ⟨i, -, hx⟩⟩⟩ := step_next.1 h
  · rfl
  · rfl
  · simpa using exec_cfg hx

/-! ### The sticky flags -/

theorem pushedByte_ne {i : Instr} {b : Byte} (hb : pushedByte i = some b) : i ≠ .flush ∧ i ≠ .rst := by
  constructor <;> (rintro rfl; cases hb)

theorem isReserved_ne {i : Instr} (hi : isReserved i = true) : i ≠ .flush ∧ i ≠ .rst := by
  constructor <;> (rintro rfl; cases hi)

/-- Settles O30: PUSH writes the flags by the event it raises, FLUSH and RST clear them, and the events of the
other operations are not among those the flags record. -/
theorem stickyFlagsFollowTheirEvents : Obligations.StickyFlagsFollowTheirEvents := by
  intro i s t h
  cases exec_next.1 h with
  | push hb h =>
    obtain ⟨-, -, -, -, hev, -⟩ := pushByte_frame h
    rcases hev with h | h | h | h | h | h <;> simp [h, pushedByte_ne hb]
  | xdec h =>
    obtain ⟨ht, hev⟩ := execXdec_frame h
    have hres : t.res = s.res := by rw [ht]
    have hovr : t.ovr = s.ovr := by rw [ht]
    rcases hev with h | ⟨-, h | h | h⟩ <;> simp [h, hres, hovr]
  | reserved hi => simp [isReserved_ne hi]
  | nop | rst | flush | ginit | gbyte => simp

end Sys2Proof.Machine
end

section
/-! Outputs (spec 10_state.md R33, R34): the fields of `STATUS` and the frame outputs. -/

namespace Sys2Proof.Machine

open Sys2Proof

/-! ### STATUS -/

theorem incomplete_iff (s : State) :
    s.incomplete = true ↔ s.st = .opc ∨ s.st = .len ∨ s.st = .pay ∨ s.st = .trl := by
  unfold State.incomplete
  cases s.st <;> simp

theorem held_iff (s : State) : s.held = true ↔ s.st = .hold := by simp [State.held]

theorem hunting_iff (s : State) : s.hunting = true ↔ s.st = .hunt := by simp [State.hunting]

/-! Where each field of `STATUS` stands (R33). -/

section Status
variable (s : State)

theorem status_getLsbD_st {i : Nat} (hi : i < 3) : s.status.getLsbD i = s.st.code.getLsbD i := by
  simp only [State.status, BitVec.getLsbD_append, if_pos hi]

theorem status_getLsbD_incomplete : s.status.getLsbD 3 = s.incomplete := by
  simp only [State.status, BitVec.getLsbD_append]
  simp

theorem status_getLsbD_held : s.status.getLsbD 4 = s.held := by
  simp only [State.status, BitVec.getLsbD_append]
  simp

theorem status_getLsbD_ovr : s.status.getLsbD 5 = s.ovr := by
  simp only [State.status, BitVec.getLsbD_append]
  simp

theorem status_getLsbD_res {i : Nat} (hi : i < 3) : s.status.getLsbD (6 + i) = s.res.code.getLsbD i := by
  simp only [State.status, BitVec.getLsbD_append]
  interval_cases i <;> simp

theorem status_getLsbD_hunting : s.status.getLsbD 9 = s.hunting := by
  simp only [State.status, BitVec.getLsbD_append]
  simp

theorem status_getLsbD_reserved {i : Nat} (hi : 10 ≤ i) : s.status.getLsbD i = false := by
  simp only [State.status, BitVec.getLsbD_append]
  simp (disch := omega) only [if_neg, BitVec.getLsbD_zero]

end Status

/-- Settles O27: the numbers are the codes' definitions, and each field is read off its lemma above. -/
theorem statusFieldsInPlace : Obligations.StatusFieldsInPlace := by
  refine ⟨rfl, rfl, fun s => ⟨?_, ?_, ?_, status_getLsbD_ovr s, ?_, ?_, ?_⟩⟩
  · apply BitVec.eq_of_getLsbD_eq
    intro i hi
    rw [BitVec.getLsbD_extractLsb', Nat.zero_add, status_getLsbD_st s hi]
    simp [hi]
  · rw [status_getLsbD_incomplete, incomplete_iff]
  · rw [status_getLsbD_held, held_iff]
  · apply BitVec.eq_of_getLsbD_eq
    intro i hi
    rw [BitVec.getLsbD_extractLsb', status_getLsbD_res s hi]
    simp [hi]
  · rw [status_getLsbD_hunting, hunting_iff]
  · apply BitVec.eq_of_getLsbD_eq
    intro i hi
    rw [BitVec.getLsbD_extractLsb', status_getLsbD_reserved s (by omega)]
    simp

/-! ### The frame outputs -/

/-- What `lookup` finds is an entry with the opcode (R174). -/
theorem lookup_some {cat : Catalog} {o : Byte} {k : Nat} (h : lookup cat o = some k) :
    ∃ e, cat[k]? = some e ∧ e.opcode = o := by
  obtain ⟨hk, he, -⟩ := List.findIdx?_eq_some_iff_getElem.1 h
  exact ⟨cat[k], List.getElem?_eq_getElem hk, by simpa using he⟩

/-- In every state of the invariant the payload bytes taken are written (R42(c)). -/
theorem Inv.written {s : State} (hi : Inv s) {a : Nat} (ha : a < payTaken s) :
    (Memory.read s.pbuf a).isSome = true := by
  obtain ⟨p, hp, -⟩ := hi.payload
  obtain ⟨hlen, hread⟩ := Memory.readSpan_ok.1 hp
  rw [← Nat.zero_add a, hread a ha]
  simp [hlen, ha]

theorem payTaken_hold {s : State} (hs : s.st = .hold) : payTaken s = s.len.toNat := by
  simp [payTaken, hs]

/-- Settles O28: outside `HOLD` every output's guard is false; in `HOLD` the invariant gives the entry and the
written cells. -/
theorem frameOutputsOnlyWhileHeld : Obligations.FrameOutputsOnlyWhileHeld := by
  refine fun s => ⟨fun hs => by simp [State.fOpc, State.fLen, State.fIdx, State.pay, hs], fun hi hs => ?_⟩
  have hidx : s.fIdx = lookup s.cfg.cat s.opc := by simp [State.fIdx, hs]
  obtain ⟨k, hk⟩ := Option.isSome_iff_exists.1 (hi.held hs).1
  refine ⟨by simp [State.fOpc, hs], by simp [State.fLen, hs], hidx, ⟨k, hidx.trans hk, lookup_some hk⟩,
    fun i => ?_⟩
  by_cases hlt : i < s.len.toNat
  · have hw := hi.written (a := i) (by rwa [payTaken_hold hs])
    simp [State.pay, hs, hlt, hw]
  · simp [State.pay, hlt, Nat.not_lt.1 hlt]

end Sys2Proof.Machine
end

section
/-! Values and their widths (spec 10_state.md R25 to R27; 41_integrity.md R142, R143; 20_memory.md R55): every
accumulator and the trailer register fit, and `ser` undoes `asm`. -/

namespace Sys2Proof.Machine

open Sys2Proof

/-! ### The algorithm's values -/

theorem algW_le {alg : Alg} (h : algWf alg = true) : algW alg ≤ 32 := algW_le_of_legal ((algWf_iff alg).1 h).1

theorem accFits_algInit {alg : Alg} (h : algWf alg = true) : AccFits alg (algInit alg) := by
  obtain ⟨-, hcrc, hsum⟩ := (algWf_iff alg).1 h
  cases alg with
  | crc => exact (hcrc _ _ _ _ _ _ rfl).2.1
  | sum => exact hsum _ _ _ rfl
  | vendor => trivial

theorem crcStep_lt {w : Nat} (hw : w ≤ 32) (poly a : AlgWord) : (crcStep w poly a).toNat < 2 ^ w := by
  rw [← and_mask_eq_iff_lt w hw, and_mask_eq_iff w hw]
  intro i hi
  simp [getLsbD_crcStep w poly a hw, Nat.not_lt.2 hi]

theorem crcRounds_lt {w : Nat} (hw : w ≤ 32) (poly a : AlgWord) : (crcRounds w poly a).toNat < 2 ^ w := by
  rw [crcRounds, Function.iterate_succ_apply']
  exact crcStep_lt hw _ _

theorem sumAbsorb_lt {w : Nat} (hw : w ≤ 32) (a : AlgWord) (b : Byte) : (sumAbsorb w a b).toNat < 2 ^ w := by
  rw [← and_mask_eq_iff_lt w hw, sumAbsorb, BitVec.and_assoc, BitVec.and_self]

/-- Absorbing a byte gives a value of `ALG.Acc` from any number, since the families mask their result. -/
theorem accFits_algAbsorb {alg : Alg} (h : algWf alg = true) (a : Nat) (b : Byte) :
    AccFits alg (algAbsorb alg a b) := by
  have hw := algW_le h
  cases alg with
  | crc => exact crcRounds_lt hw _ _
  | sum => exact sumAbsorb_lt hw _ _
  | vendor => trivial

theorem accFits_startAcc {c : Cfg} (h : algWf c.alg = true) : AccFits c.alg (startAcc c) := by
  unfold startAcc
  split
  · exact accFits_algAbsorb h _ _
  · exact accFits_algInit h

theorem fitsAlg_zero (c : Cfg) : FitsAlg c 0 := BitVec.zero_and

/-- The trailer is shifted into a register of `ALG.W` bits (R109). -/
theorem fitsAlg_trlShifted {s : State} (h : algWf s.cfg.alg = true) (b : Byte) : FitsAlg s.cfg (trlShifted s b) := by
  unfold FitsAlg trlShifted
  rw [and_mask_eq_iff _ (algW_le h)]
  intro i hi
  rw [BitVec.getLsbD_setWidth, BitVec.getLsbD_of_ge _ _ hi, Bool.and_false]

/-- The trailer has one to four bytes (R12). -/
theorem trlW_bounds {c : Cfg} (h : algWf c.alg = true) : 0 < trlW c ∧ trlW c ≤ 4 := by
  obtain ⟨hw, -⟩ := (algWf_iff c.alg).1 h
  unfold trlW
  omega

/-! ### Byte order -/

/-- `asm_LE` is the number with digits `s` to the base 256. -/
theorem asmLE_digit (s : List Byte) (i : Nat) (hi : i < s.length) :
    BitVec.ofNat 8 (asmLE s >>> (8 * i)) = s[i] := by
  induction s generalizing i with
  | nil => simp at hi
  | cons b s ih =>
    have hb := b.isLt
    cases i with
    | zero =>
      apply BitVec.eq_of_toNat_eq
      simp only [asmLE, BitVec.toNat_ofNat, Nat.mul_zero, Nat.shiftRight_zero, List.getElem_cons_zero]
      omega
    | succ i =>
      have hshift : asmLE (b :: s) >>> 8 = asmLE s := by
        rw [asmLE, Nat.shiftRight_eq_div_pow]
        omega
      rw [Nat.mul_succ, Nat.add_comm, Nat.shiftRight_add, hshift, List.getElem_cons_succ]
      exact ih i (by simpa using hi)

theorem serLE_asmLE (s : List Byte) : serLE (asmLE s) s.length = s := by
  refine List.ext_getElem (by simp [serLE]) fun i _ hi => ?_
  simpa [serLE] using asmLE_digit s i hi

theorem serBE_eq_reverse (v n : Nat) : serBE v n = (serLE v n).reverse := by
  refine List.ext_getElem (by simp [serBE, serLE]) fun i hi _ => ?_
  simp [serBE, serLE]

/-- `ser` undoes `asm`, in either order (R55). -/
theorem ser_asm (bo : ByteOrder) (s : List Byte) : ser bo (asm bo s) s.length = s := by
  cases bo with
  | le => exact serLE_asmLE s
  | be =>
    have h := serLE_asmLE s.reverse
    rw [List.length_reverse] at h
    simp only [ser, asm, asmBE, serBE_eq_reverse, h, List.reverse_reverse]

@[simp] theorem asm_nil (bo : ByteOrder) : asm bo [] = 0 := by cases bo <;> rfl

theorem asm_singleton (bo : ByteOrder) (b : Byte) : asm bo [b] = b.toNat := by
  cases bo <;> simp [asm, asmBE, asmLE]

end Sys2Proof.Machine
end

section
/-! A pushed byte, row by row of the transition table (spec 40_delimiter.md R100, R105 to R109): one equation for
each condition that a state of the sequencer distinguishes. -/

namespace Sys2Proof.Machine

open Sys2Proof

section Rows
variable {s : State} {b : Byte}

theorem pushHunt_marker (h : b = s.cfg.sof) :
    pushHunt b s = raise .none { s with acc := startAcc s.cfg, st := .opc, cnt := 0 } := if_pos h

theorem pushHunt_other (h : b ≠ s.cfg.sof) : pushHunt b s = raise .none s := if_neg h

theorem pushLen_more (h : s.cnt.toNat + 1 < s.cfg.lenW) :
    pushLen b s = raise .none { s with acc := absorbed s b, len := lenShifted s b, cnt := s.cnt + 1 } := if_pos h

theorem pushLen_tooLong (h : ¬s.cnt.toNat + 1 < s.cfg.lenW) (hl : s.cfg.lenMax < (lenShifted s b).toNat) :
    pushLen b s = raise .malformed { s with acc := absorbed s b, len := lenShifted s b, cnt := 0 } :=
  (if_neg h).trans (if_pos hl)

theorem pushLen_empty (h : ¬s.cnt.toNat + 1 < s.cfg.lenW) (hl : ¬s.cfg.lenMax < (lenShifted s b).toNat)
    (hz : lenShifted s b = 0) :
    pushLen b s =
      raise .none { s with acc := absorbed s b, len := lenShifted s b, cnt := 0, trl := 0, st := .trl } :=
  (if_neg h).trans ((if_neg hl).trans (if_pos hz))

theorem pushLen_payload (h : ¬s.cnt.toNat + 1 < s.cfg.lenW) (hl : ¬s.cfg.lenMax < (lenShifted s b).toNat)
    (hz : lenShifted s b ≠ 0) :
    pushLen b s = raise .none { s with acc := absorbed s b, len := lenShifted s b, cnt := 0, st := .pay } :=
  (if_neg h).trans ((if_neg hl).trans (if_neg hz))

theorem pushPayRegs_last (h : s.cnt.toNat + 1 = s.len.toNat) :
    pushPayRegs b s = raise .none { s with acc := absorbed s b, trl := 0, st := .trl, cnt := 0 } := if_pos h

theorem pushPayRegs_more (h : s.cnt.toNat + 1 ≠ s.len.toNat) :
    pushPayRegs b s = raise .none { s with acc := absorbed s b, cnt := s.cnt + 1 } := if_neg h

theorem pushTrl_more (h : s.cnt.toNat + 1 < trlW s.cfg) :
    pushTrl b s = raise .none { s with trl := trlShifted s b, cnt := s.cnt + 1 } := if_pos h

theorem pushTrl_last (h : ¬s.cnt.toNat + 1 < trlW s.cfg) :
    pushTrl b s =
      raise (verdict { s with trl := trlShifted s b }) { s with trl := trlShifted s b, cnt := 0 } := if_neg h

/-- The three verdicts on a complete frame; the frame is held only if it is known and its trailer is its checksum. -/
theorem verdict_cases (s : State) :
    (verdict s = .frameOk ∧ s.trl = algFin s.cfg.alg s.acc ∧ (lookup s.cfg.cat s.opc).isSome = true) ∨
      verdict s = .unknownCmd ∨ verdict s = .integrityMismatch := by
  unfold verdict
  by_cases htrl : s.trl = algFin s.cfg.alg s.acc
  · cases hk : lookup s.cfg.cat s.opc <;> simp [htrl]
  · simp [htrl]

end Rows

end Sys2Proof.Machine
end

section
/-! The invariant (spec 10_state.md R42): its clauses on the frame in progress or held, state by state of the
sequencer, and that every step keeps it. -/

namespace Sys2Proof.Machine

open Sys2Proof

/-! ### The accumulator over the covered span -/

/-- The accumulator over `covered` of what has been taken of a frame (R26, R76). -/
def coveredAcc (c : Cfg) (o : Byte) (lenBytes p : List Byte) : Nat :=
  absorbAll c.alg (algInit c.alg) (covered c o lenBytes p)

/-- A covered byte that is taken is absorbed last. -/
theorem algAbsorb_absorbAll (alg : Alg) (a : Nat) (s : List Byte) (b : Byte) :
    algAbsorb alg (absorbAll alg a s) b = absorbAll alg a (s ++ [b]) := by
  rw [absorbAll_append]
  rfl

theorem algAbsorb_startAcc (c : Cfg) (o : Byte) : algAbsorb c.alg (startAcc c) o = coveredAcc c o [] [] := by
  unfold startAcc coveredAcc covered
  split <;> rfl

theorem algAbsorb_coveredAcc_length (c : Cfg) (o b : Byte) (lb : List Byte) :
    algAbsorb c.alg (coveredAcc c o lb []) b = coveredAcc c o (lb ++ [b]) [] := by
  rw [coveredAcc, algAbsorb_absorbAll]
  simp [coveredAcc, covered]

theorem algAbsorb_coveredAcc_payload (c : Cfg) (o b : Byte) (lb p : List Byte) :
    algAbsorb c.alg (coveredAcc c o lb p) b = coveredAcc c o lb (p ++ [b]) := by
  rw [coveredAcc, algAbsorb_absorbAll]
  simp [coveredAcc, covered]

/-! ### The clauses on the frame, by the state of the sequencer -/

/-- The clauses of the invariant on the frame in progress or held: R42(b), R42(c), R42(d). -/
structure FrameOk (s : State) : Prop where
  position : PositionOk s
  payload : ∃ p, Memory.readSpan s.pbuf 0 (payTaken s) = .ok p ∧ AccCovers s p
  held : s.st = .hold → (lookup s.cfg.cat s.opc).isSome = true ∧ s.trl = algFin s.cfg.alg s.acc

theorem frameOk_iff (s : State) :
    FrameOk s ↔ PositionOk s ∧ (∃ p, Memory.readSpan s.pbuf 0 (payTaken s) = .ok p ∧ AccCovers s p) ∧
      (s.st = .hold → (lookup s.cfg.cat s.opc).isSome = true ∧ s.trl = algFin s.cfg.alg s.acc) :=
  ⟨fun h => ⟨h.position, h.payload, h.held⟩, fun ⟨h1, h2, h3⟩ => ⟨h1, h2, h3⟩⟩

theorem Inv.frameOk {s : State} (hi : Inv s) : FrameOk s := ⟨hi.position, hi.payload, hi.held⟩

section States
variable {s : State}

theorem frameOk_hunt (hs : s.st = .hunt) : FrameOk s ↔ s.cnt.toNat = 0 := by
  simp [frameOk_iff, PositionOk, AccCovers, payTaken, Memory.readSpan, hs]

theorem frameOk_opc (hs : s.st = .opc) : FrameOk s ↔ s.cnt.toNat = 0 ∧ s.acc = startAcc s.cfg := by
  simp [frameOk_iff, PositionOk, AccCovers, payTaken, Memory.readSpan, hs]

/-- Of a length field of at most two bytes, the bytes taken are the one string of `cnt` bytes that `len` holds. -/
theorem lenBytesSoFar_eq_iff (hs : s.st = .len) (hc : s.cnt.toNat < 2) (lb : List Byte) :
    (s.len.toNat < 2 ^ (8 * s.cnt.toNat) ∧ lb = lenBytesSoFar s) ↔
      lb.length = s.cnt.toNat ∧ asm s.cfg.bo lb = s.len.toNat := by
  obtain h0 | h1 : s.cnt.toNat = 0 ∨ s.cnt.toNat = 1 := by omega
  · simp only [lenBytesSoFar, hs, h0, if_pos, List.length_eq_zero_iff]
    constructor
    · rintro ⟨hl, rfl⟩
      exact ⟨rfl, by simp; omega⟩
    · rintro ⟨rfl, hl⟩
      exact ⟨by simp [← hl], rfl⟩
  · simp only [lenBytesSoFar, hs, h1, one_ne_zero, if_false, List.length_eq_one_iff]
    constructor
    · rintro ⟨hl, rfl⟩
      exact ⟨⟨_, rfl⟩, by rw [asm_singleton, BitVec.toNat_setWidth, Nat.mod_eq_of_lt hl]⟩
    · rintro ⟨⟨x, rfl⟩, hl⟩
      rw [asm_singleton] at hl
      refine ⟨hl ▸ x.isLt, List.singleton_inj.2 (BitVec.eq_of_toNat_eq ?_)⟩
      rw [BitVec.toNat_setWidth, ← hl, Nat.mod_eq_of_lt x.isLt]

/-- In `LEN`: `lb` are the bytes of the length field taken so far. -/
theorem frameOk_len (hw : s.cfg.lenW ≤ 2) (hs : s.st = .len) :
    FrameOk s ↔ s.cnt.toNat < s.cfg.lenW ∧ ∃ lb : List Byte, lb.length = s.cnt.toNat ∧
      asm s.cfg.bo lb = s.len.toNat ∧ s.acc = coveredAcc s.cfg s.opc lb [] := by
  simp only [frameOk_iff, PositionOk, AccCovers, payTaken, Memory.readSpan, hs, reduceCtorEq, false_implies,
    and_true, Except.ok.injEq, exists_eq_left']
  constructor
  · rintro ⟨⟨hcnt, hlen⟩, hacc⟩
    obtain ⟨hlb, hasm⟩ := (lenBytesSoFar_eq_iff hs (by omega) _).1 ⟨hlen, rfl⟩
    exact ⟨hcnt, _, hlb, hasm, hacc⟩
  · rintro ⟨hcnt, lb, hlb, hasm, hacc⟩
    obtain ⟨hlen, rfl⟩ := (lenBytesSoFar_eq_iff hs (by omega) lb).2 ⟨hlb, hasm⟩
    exact ⟨⟨hcnt, hlen⟩, hacc⟩

theorem frameOk_pay (hs : s.st = .pay) :
    FrameOk s ↔ s.cnt.toNat < s.len.toNat ∧ s.len.toNat ≤ s.cfg.lenMax ∧
      ∃ p, Memory.readSpan s.pbuf 0 s.cnt.toNat = .ok p ∧
        s.acc = coveredAcc s.cfg s.opc (ser s.cfg.bo s.len.toNat s.cfg.lenW) p := by
  simp only [frameOk_iff, PositionOk, AccCovers, payTaken, lenBytesSoFar, coveredAcc, hs, reduceCtorEq,
    false_implies, and_true]
  constructor
  · rintro ⟨⟨h, -, hl⟩, hp⟩
    exact ⟨h, hl, hp⟩
  · rintro ⟨h, hl, hp⟩
    exact ⟨⟨h, by omega, hl⟩, hp⟩

theorem frameOk_trl (hs : s.st = .trl) :
    FrameOk s ↔ s.cnt.toNat < trlW s.cfg ∧ s.len.toNat ≤ s.cfg.lenMax ∧
      ∃ p, Memory.readSpan s.pbuf 0 s.len.toNat = .ok p ∧
        s.acc = coveredAcc s.cfg s.opc (ser s.cfg.bo s.len.toNat s.cfg.lenW) p := by
  simp [frameOk_iff, PositionOk, AccCovers, payTaken, lenBytesSoFar, coveredAcc, hs, and_assoc]

theorem frameOk_hold (hs : s.st = .hold) :
    FrameOk s ↔ s.cnt.toNat = 0 ∧ s.len.toNat ≤ s.cfg.lenMax ∧
      (∃ p, Memory.readSpan s.pbuf 0 s.len.toNat = .ok p ∧
        s.acc = coveredAcc s.cfg s.opc (ser s.cfg.bo s.len.toNat s.cfg.lenW) p) ∧
      (lookup s.cfg.cat s.opc).isSome = true ∧ s.trl = algFin s.cfg.alg s.acc := by
  simp [frameOk_iff, PositionOk, AccCovers, payTaken, lenBytesSoFar, coveredAcc, hs, and_assoc]

end States

/-! ### A pushed byte keeps the clauses on the frame -/

theorem toNat_add_one {n : BitVec 16} (h : n.toNat + 1 < 2 ^ 16) : (n + 1).toNat = n.toNat + 1 := by
  rw [BitVec.toNat_add]
  exact Nat.mod_eq_of_lt h

section Push
variable {s : State} {b : Byte}

theorem pushHunt_frameOk (hs : s.st = .hunt) (h : FrameOk s) : FrameOk (pushHunt b s) := by
  by_cases hb : b = s.cfg.sof
  · rw [pushHunt_marker hb]
    exact (frameOk_opc rfl).2 ⟨rfl, rfl⟩
  · rw [pushHunt_other hb]
    exact (frameOk_hunt (s := raise .none s) hs).2 ((frameOk_hunt hs).1 h)

theorem pushOpc_frameOk (hc : cfgWf s.cfg = true) (hs : s.st = .opc) (h : FrameOk s) :
    FrameOk (pushOpc b s) := by
  obtain ⟨hw, -⟩ := (cfgWf_iff s.cfg).1 hc
  obtain ⟨-, hacc⟩ := (frameOk_opc hs).1 h
  have hacc' : absorbed s b = coveredAcc s.cfg b [] [] := by rw [absorbed, hacc, algAbsorb_startAcc]
  have hw2 : s.cfg.lenW ≤ 2 := by omega
  have hw1 : 0 < s.cfg.lenW := by omega
  exact (frameOk_len (s := pushOpc b s) hw2 rfl).2 ⟨hw1, [], rfl, asm_nil _, hacc'⟩

theorem pushLen_frameOk (hc : cfgWf s.cfg = true) (hs : s.st = .len) (h : FrameOk s) :
    FrameOk (pushLen b s) := by
  obtain ⟨hw, -, halg, -⟩ := (cfgWf_iff s.cfg).1 hc
  have hw2 : s.cfg.lenW ≤ 2 := by omega
  obtain ⟨hcnt, lb, hlb, hasm, hacc⟩ := (frameOk_len hw2 hs).1 h
  have hlen : asm s.cfg.bo (lb ++ [b]) = (lenShifted s b).toNat := by
    rw [lenShifted, ← hlb, shiftIn_asm s.cfg.bo 16 lb b s.len (by omega) hasm.symm]
  have hacc' : absorbed s b = coveredAcc s.cfg s.opc (lb ++ [b]) [] := by
    rw [absorbed, hacc, algAbsorb_coveredAcc_length]
  by_cases hlast : s.cnt.toNat + 1 < s.cfg.lenW
  · have hnext : (s.cnt + 1).toNat = s.cnt.toNat + 1 := toNat_add_one (by omega)
    rw [pushLen_more hlast]
    exact (frameOk_len (s := raise .none _) (by exact hw2) (by exact hs)).2
      ⟨hnext.trans_lt hlast, lb ++ [b], by rw [List.length_append, hlb]; exact hnext.symm, hlen, hacc'⟩
  · have hfield : (lb ++ [b]).length = s.cfg.lenW := by simp; omega
    have hser : ser s.cfg.bo (lenShifted s b).toNat s.cfg.lenW = lb ++ [b] := by rw [← hlen, ← hfield, ser_asm]
    rw [← hser] at hacc'
    by_cases hmax : s.cfg.lenMax < (lenShifted s b).toNat
    · rw [pushLen_tooLong hlast hmax]
      exact (frameOk_hunt rfl).2 rfl
    have hle : (lenShifted s b).toNat ≤ s.cfg.lenMax := by omega
    by_cases hzero : lenShifted s b = 0
    · rw [pushLen_empty hlast hmax hzero]
      exact (frameOk_trl rfl).2 ⟨(trlW_bounds halg).1, hle, [], by simp [hzero, Memory.readSpan], hacc'⟩
    · have hpos : 0 < (lenShifted s b).toNat := by
        rw [Nat.pos_iff_ne_zero]
        exact fun h => hzero (BitVec.eq_of_toNat_eq h)
      rw [pushLen_payload hlast hmax hzero]
      exact (frameOk_pay rfl).2 ⟨hpos, hle, [], rfl, hacc'⟩

theorem readSpan_write_next {m : Memory} {n : Nat} {p : List Byte} (h : Memory.readSpan m 0 n = .ok p) (v : Byte) :
    Memory.readSpan (Memory.write m n v) 0 (n + 1) = .ok (p ++ [v]) := by
  obtain ⟨rfl, hread⟩ := Memory.readSpan_ok.1 h
  refine Memory.readSpan_ok.2 ⟨by simp, fun i hi => ?_⟩
  rw [Nat.zero_add]
  obtain hlt | rfl : i < p.length ∨ i = p.length := by omega
  · rw [Memory.read_write_other m v hlt.ne, List.getElem?_append_left hlt, ← hread i hlt, Nat.zero_add]
  · simp

theorem pushPay_frameOk {t : State} (halg : algWf s.cfg.alg = true) (hs : s.st = .pay) (h : FrameOk s)
    (ht : pushPay b s = .next t) : FrameOk t := by
  obtain ⟨hcnt, hmax, p, hp, hacc⟩ := (frameOk_pay hs).1 h
  obtain ⟨-, rfl⟩ := pushPay_next.1 ht
  have hread := readSpan_write_next hp b
  have hacc' : absorbed s b = coveredAcc s.cfg s.opc (ser s.cfg.bo s.len.toNat s.cfg.lenW) (p ++ [b]) := by
    rw [absorbed, hacc, algAbsorb_coveredAcc_payload]
  have hnext : (s.cnt + 1).toNat = s.cnt.toNat + 1 := toNat_add_one (by omega)
  by_cases hlast : s.cnt.toNat + 1 = s.len.toNat
  · rw [hlast] at hread
    rw [pushPayRegs_last (by exact hlast)]
    exact (frameOk_trl rfl).2 ⟨(trlW_bounds halg).1, hmax, p ++ [b], hread, hacc'⟩
  · have hmore : s.cnt.toNat + 1 < s.len.toNat := by omega
    rw [← hnext] at hread
    rw [pushPayRegs_more (by exact hlast)]
    exact (frameOk_pay (s := raise .none _) (by exact hs)).2
      ⟨hnext.trans_lt hmore, hmax, p ++ [b], hread, hacc'⟩

theorem pushTrl_frameOk (halg : algWf s.cfg.alg = true) (hs : s.st = .trl) (h : FrameOk s) :
    FrameOk (pushTrl b s) := by
  obtain ⟨hcnt, hmax, hp⟩ := (frameOk_trl hs).1 h
  have hw := (trlW_bounds halg).2
  by_cases hmore : s.cnt.toNat + 1 < trlW s.cfg
  · have hnext : (s.cnt + 1).toNat = s.cnt.toNat + 1 := toNat_add_one (by omega)
    rw [pushTrl_more hmore]
    exact (frameOk_trl (s := raise .none _) (by exact hs)).2 ⟨hnext.trans_lt hmore, hmax, hp⟩
  · rw [pushTrl_last hmore]
    rcases verdict_cases { s with trl := trlShifted s b } with ⟨hv, htrl, hk⟩ | hv | hv <;> rw [hv]
    · exact (frameOk_hold rfl).2 ⟨rfl, hmax, hp, hk, htrl⟩
    · exact (frameOk_hunt rfl).2 rfl
    · exact (frameOk_hunt rfl).2 rfl

theorem pushByte_frameOk {t : State} (hc : cfgWf s.cfg = true) (h : FrameOk s) (ht : pushByte b s = .next t)
    (hs : s.st ≠ .hold) : FrameOk t := by
  obtain ⟨-, -, halg, -⟩ := (cfgWf_iff s.cfg).1 hc
  rcases pushByte_next.1 ht with ⟨hst, rfl⟩ | ⟨hst, rfl⟩ | ⟨hst, rfl⟩ | ⟨hst, ht⟩ | ⟨hst, rfl⟩ | ⟨hst, -⟩
  · exact pushHunt_frameOk hst h
  · exact pushOpc_frameOk hc hst h
  · exact pushLen_frameOk hc hst h
  · exact pushPay_frameOk halg hst h ht
  · exact pushTrl_frameOk halg hst h
  · exact absurd hst hs

end Push

/-! ### What every operation keeps of the invariant -/

/-- What a pushed byte can write to the trailer, the receive accumulator and the buffer. -/
theorem pushByte_data {b : Byte} {s t : State} (h : pushByte b s = .next t) :
    (t.trl = s.trl ∨ t.trl = 0 ∨ t.trl = trlShifted s b) ∧
    (t.acc = s.acc ∨ t.acc = startAcc s.cfg ∨ t.acc = absorbed s b) ∧
    (t.pbuf = s.pbuf ∨ s.cnt.toNat < s.cfg.lenMax ∧ t.pbuf = Memory.write s.pbuf s.cnt.toNat b) := by
  rcases pushByte_next.1 h with ⟨-, rfl⟩ | ⟨-, rfl⟩ | ⟨-, rfl⟩ | ⟨-, h⟩ | ⟨-, rfl⟩ | ⟨-, rfl⟩
  · unfold pushHunt
    split <;> simp
  · simp [pushOpc]
  · unfold pushLen
    dsimp only
    split_ifs <;> simp
  · obtain ⟨hlt, rfl⟩ := pushPay_next.1 h
    unfold pushPayRegs
    split <;> simp [hlt, absorbed]
  · unfold pushTrl
    dsimp only
    split <;> simp
  · simp

section Keeps
variable {s t : State}

/-- The invariant does not look at the host's inputs or at `ovr`, and of the result and of `gacc` it asks for
their own clauses only. -/
theorem Inv.of_frame_eq (hi : Inv s) (hx : t = { s with port := t.port, out := t.out, gacc := t.gacc, ovr := t.ovr })
    (hg : AccFits s.cfg.alg t.gacc) (ho : t.out.xout.isSome = true ↔ t.out.ev = .xOk) : Inv t := by
  rw [hx]
  exact { hi with gaccFits := hg, outForm := ho }

/-- Without a frame in progress or held, the invariant asks for the values' ranges only. -/
theorem inv_of_hunt (hc : cfgWf t.cfg = true) (hf : Memory.wf t.pbuf = true)
    (hr : ∀ a, t.cfg.lenMax ≤ a → Memory.read t.pbuf a = none) (htrl : FitsAlg t.cfg t.trl)
    (hacc : t.acc = algInit t.cfg.alg) (hg : AccFits t.cfg.alg t.gacc) (hst : t.st = .hunt) (hcnt : t.cnt = 0)
    (hres : t.res = .none) (hout : t.out = ⟨.none, none⟩) : Inv t := by
  obtain ⟨-, -, halg, -⟩ := (cfgWf_iff t.cfg).1 hc
  obtain ⟨hpos, hpay, hheld⟩ := (frameOk_hunt hst).2 (by rw [hcnt]; rfl)
  exact
    { config := hc, bufferForm := hf, bufferRange := hr, trlFits := htrl, gaccFits := hg
      accFits := hacc ▸ accFits_algInit halg
      position := hpos, payload := hpay, held := hheld
      resHeld := by simp [hres, hst]
      outForm := by simp [hout] }

theorem pushByte_inv {b : Byte} (hi : Inv s) (h : pushByte b s = .next t) : Inv t := by
  obtain ⟨hcfg, -, hgacc, hxout, hev, -⟩ := pushByte_frame h
  obtain ⟨htrl, hacc, hbuf⟩ := pushByte_data h
  obtain ⟨-, -, halg, -⟩ := (cfgWf_iff s.cfg).1 hi.config
  by_cases hs : s.st = .hold
  · have : t = raise .overrun s := by simpa [pushByte, hs, eq_comm] using h
    subst this
    exact hi.of_frame_eq rfl hi.gaccFits (by simp)
  obtain ⟨hpos, hpay, hheld⟩ := pushByte_frameOk hi.config hi.frameOk h hs
  exact
    { config := hcfg ▸ hi.config
      bufferForm := by
        rcases hbuf with hb | ⟨-, hb⟩ <;> rw [hb]
        · exact hi.bufferForm
        · exact Memory.wf_write _ _ hi.bufferForm
      bufferRange := by
        intro a ha
        rw [hcfg] at ha
        rcases hbuf with hb | ⟨hlt, hb⟩ <;> rw [hb]
        · exact hi.bufferRange a ha
        · rw [Memory.read_write_other _ _ (by omega), hi.bufferRange a ha]
      trlFits := by
        rw [hcfg]
        rcases htrl with ht | ht | ht <;> rw [ht]
        · exact hi.trlFits
        · exact fitsAlg_zero _
        · exact fitsAlg_trlShifted halg b
      accFits := by
        rw [hcfg]
        rcases hacc with ha | ha | ha <;> rw [ha]
        · exact hi.accFits
        · exact accFits_startAcc halg
        · exact accFits_algAbsorb halg _ _
      gaccFits := by rw [hcfg, hgacc]; exact hi.gaccFits
      position := hpos, payload := hpay, held := hheld
      resHeld := by
        have hres := hi.resHeld
        rcases hev with h | h | h | h | h | h <;> simp_all
      outForm := by
        rcases hev with h | h | h | h | h | h <;> simp [hxout, h] }

/-- Every operation keeps the invariant. -/
theorem exec_inv {i : Instr} (hi : Inv s) (h : exec i s = .next t) : Inv t := by
  obtain ⟨-, -, halg, -⟩ := (cfgWf_iff s.cfg).1 hi.config
  cases exec_next.1 h with
  | push hb h => exact pushByte_inv hi h
  | xdec h =>
    obtain ⟨ht, hev⟩ := execXdec_frame h
    have hg : t.gacc = s.gacc := by rw [ht]
    refine hi.of_frame_eq (by rw [ht]) (hg ▸ hi.gaccFits) ?_
    rcases hev with h | ⟨-, h | h | h⟩ <;> simp [h]
  | rst =>
    exact inv_of_hunt hi.config hi.bufferForm hi.bufferRange (fitsAlg_zero _) rfl (accFits_algInit halg) rfl rfl
      rfl rfl
  | flush =>
    exact inv_of_hunt hi.config hi.bufferForm hi.bufferRange hi.trlFits rfl hi.gaccFits rfl rfl rfl rfl
  | ginit => exact hi.of_frame_eq rfl (accFits_algInit halg) (by simp)
  | gbyte b => exact hi.of_frame_eq rfl (accFits_algAbsorb halg _ _) (by simp)
  | nop | reserved => exact hi.of_frame_eq rfl hi.gaccFits (by simp)

end Keeps

theorem inv_resetWith {c : Cfg} (hc : cfgWf c = true) : Inv (State.resetWith c) := by
  obtain ⟨-, -, halg, -⟩ := (cfgWf_iff c).1 hc
  exact inv_of_hunt hc rfl (fun _ _ => rfl) (fitsAlg_zero _) rfl (accFits_algInit halg) rfl rfl rfl rfl

/-- Settles O45: the reset state of a configuration has no frame, and the reference configuration is well formed. -/
theorem invariantHoldsAtReset : Obligations.InvariantHoldsAtReset :=
  ⟨inv_resetWith (by decide +kernel), fun _ hc => inv_resetWith hc⟩

/-- Settles O46: a step is an operation, which keeps the invariant by `exec_inv`, the hardware reset, or nothing. -/
theorem everyStepKeepsTheInvariant : Obligations.EveryStepKeepsTheInvariant := by
  intro s t hi h
  obtain ⟨hc, ⟨-, rfl⟩ | ⟨w, rest, -, ⟨-, rfl⟩ | ⟨i, -, hx⟩⟩⟩ := step_next.1 h
  · exact hi
  · exact (inv_resetWith hc).of_frame_eq rfl (inv_resetWith hc).gaccFits (inv_resetWith hc).outForm
  · exact exec_inv (hi.of_frame_eq (t := { s with port := rest }) rfl hi.gaccFits hi.outForm) hx

end Sys2Proof.Machine
end

section
/-! Stale cells (spec 10_state.md R42(e); 20_memory.md R59): an operation carries a state and the same state over
another buffer to states that again differ in the buffer only, and outside the cells of the frame. -/

namespace Sys2Proof.Machine

open Sys2Proof

/-! ### A pushed byte over another buffer -/

/-- The state with another payload buffer. -/
def State.withPbuf (s : State) (m : Memory) : State := { s with pbuf := m }

section Buffer
variable (s : State) (m : Memory) (b : Byte)

@[simp] theorem withPbuf_pbuf : (s.withPbuf m).pbuf = m := rfl
@[simp] theorem withPbuf_st : (s.withPbuf m).st = s.st := rfl
@[simp] theorem withPbuf_cnt : (s.withPbuf m).cnt = s.cnt := rfl
@[simp] theorem withPbuf_len : (s.withPbuf m).len = s.len := rfl

theorem raise_withPbuf (e : Event) : raise e (s.withPbuf m) = (raise e s).withPbuf m := by
  cases e <;> rfl

theorem pushHunt_withPbuf : pushHunt b (s.withPbuf m) = (pushHunt b s).withPbuf m := by
  by_cases h : b = s.cfg.sof
  · rw [pushHunt_marker h, pushHunt_marker (s := s.withPbuf m) h]
    rfl
  · rw [pushHunt_other h, pushHunt_other (s := s.withPbuf m) h]
    rfl

theorem pushOpc_withPbuf : pushOpc b (s.withPbuf m) = (pushOpc b s).withPbuf m := rfl

theorem pushLen_withPbuf : pushLen b (s.withPbuf m) = (pushLen b s).withPbuf m := by
  by_cases h : s.cnt.toNat + 1 < s.cfg.lenW
  · rw [pushLen_more h, pushLen_more (s := s.withPbuf m) h]
    rfl
  by_cases hl : s.cfg.lenMax < (lenShifted s b).toNat
  · rw [pushLen_tooLong h hl, pushLen_tooLong (s := s.withPbuf m) h hl]
    rfl
  by_cases hz : lenShifted s b = 0
  · rw [pushLen_empty h hl hz, pushLen_empty (s := s.withPbuf m) h hl hz]
    rfl
  · rw [pushLen_payload h hl hz, pushLen_payload (s := s.withPbuf m) h hl hz]
    rfl

theorem pushPayRegs_withPbuf : pushPayRegs b (s.withPbuf m) = (pushPayRegs b s).withPbuf m := by
  by_cases h : s.cnt.toNat + 1 = s.len.toNat
  · rw [pushPayRegs_last h, pushPayRegs_last (s := s.withPbuf m) h]
    rfl
  · rw [pushPayRegs_more h, pushPayRegs_more (s := s.withPbuf m) h]
    rfl

theorem pushTrl_withPbuf : pushTrl b (s.withPbuf m) = (pushTrl b s).withPbuf m := by
  by_cases h : s.cnt.toNat + 1 < trlW s.cfg
  · rw [pushTrl_more h, pushTrl_more (s := s.withPbuf m) h]
    rfl
  · rw [pushTrl_last h, pushTrl_last (s := s.withPbuf m) h]
    exact raise_withPbuf { s with trl := trlShifted s b, cnt := 0 } m (verdict { s with trl := trlShifted s b })

/-- Outside `PAY` a pushed byte neither reads nor writes the buffer. -/
theorem pushByte_withPbuf (h : s.st ≠ .pay) {t : State} (ht : pushByte b s = .next t) :
    pushByte b (s.withPbuf m) = .next (t.withPbuf m) := by
  rw [pushByte_next] at ht ⊢
  rcases ht with ⟨hs, rfl⟩ | ⟨hs, rfl⟩ | ⟨hs, rfl⟩ | ⟨hs, -⟩ | ⟨hs, rfl⟩ | ⟨hs, rfl⟩
  · simp [hs, pushHunt_withPbuf]
  · simp [hs, pushOpc_withPbuf]
  · simp [hs, pushLen_withPbuf]
  · exact absurd hs h
  · simp [hs, pushTrl_withPbuf]
  · simp [hs, raise_withPbuf]

end Buffer

/-! ### The cells of the frame -/

/-- A byte pushed outside `PAY` puts no new cell in use. -/
theorem payTaken_pushByte_le {b : Byte} {s t : State} (h : pushByte b s = .next t) (hs : s.st ≠ .pay) :
    payTaken t ≤ payTaken s := by
  rcases pushByte_next.1 h with ⟨hst, rfl⟩ | ⟨hst, rfl⟩ | ⟨hst, rfl⟩ | ⟨hst, -⟩ | ⟨hst, rfl⟩ | ⟨hst, rfl⟩
  · unfold pushHunt
    split <;> simp [payTaken, hst]
  · simp [payTaken, pushOpc]
  · by_cases hmore : s.cnt.toNat + 1 < s.cfg.lenW
    · simp [pushLen_more hmore, payTaken, hst]
    by_cases hmax : s.cfg.lenMax < (lenShifted s b).toNat
    · simp [pushLen_tooLong hmore hmax, payTaken]
    by_cases hzero : lenShifted s b = 0
    · simp [pushLen_empty hmore hmax hzero, payTaken, hzero]
    · simp [pushLen_payload hmore hmax hzero, payTaken]
  · exact absurd hst hs
  · by_cases hmore : s.cnt.toNat + 1 < trlW s.cfg
    · simp [pushTrl_more hmore, payTaken, hst]
    · rw [pushTrl_last hmore]
      rcases verdict_cases { s with trl := trlShifted s b } with ⟨hv, -⟩ | hv | hv <;> rw [hv] <;> simp [payTaken, hst]
  · simp [payTaken, hst]

/-- A byte pushed in `PAY` puts at most the cell it is stored in. -/
theorem payTaken_pushPay_le {b : Byte} {s t : State} (h : pushPay b s = .next t) (hs : s.st = .pay) :
    payTaken t ≤ s.cnt.toNat + 1 := by
  obtain ⟨-, rfl⟩ := pushPay_next.1 h
  by_cases hlast : s.cnt.toNat + 1 = s.len.toNat
  · rw [pushPayRegs_last (by exact hlast), hlast]
    simp [payTaken]
  · rw [pushPayRegs_more (by exact hlast)]
    simp [payTaken, hs, Nat.mod_le]

theorem payTaken_pay {s : State} (hs : s.st = .pay) : payTaken s = s.cnt.toNat := by
  simp [payTaken, hs]

theorem pushByte_of_pay {s : State} {b : Byte} (hs : s.st = .pay) : pushByte b s = pushPay b s := by
  simp [pushByte, hs]

theorem pushPayRegs_pbuf (b : Byte) (s : State) : (pushPayRegs b s).pbuf = s.pbuf := by
  unfold pushPayRegs
  split <;> rfl

theorem pushByte_pbuf {b : Byte} {s t : State} (h : pushByte b s = .next t) (hs : s.st ≠ .pay) :
    t.pbuf = s.pbuf := by
  obtain ⟨-, -, -, -, -, hbuf, -⟩ := pushByte_frame h
  exact hbuf hs

/-! ### Each operation, with the same frame over another buffer -/

section Stale
variable {s s' t : State}

theorem sameButBuffer_iff : SameButBuffer s s' ↔ ∃ m, s' = s.withPbuf m :=
  ⟨fun h => ⟨s'.pbuf, h.symm⟩, by rintro ⟨m, rfl⟩; rfl⟩

theorem pushPay_stale {b : Byte} (h : pushPay b s = .next t) (hs : s.st = .pay) (hb : SameButBuffer s s')
    (hf : SameFrameBytes s s') :
    ∃ t', pushPay b s' = .next t' ∧ SameButBuffer t t' ∧ SameFrameBytes t t' := by
  obtain ⟨m, rfl⟩ := sameButBuffer_iff.1 hb
  have htaken := payTaken_pushPay_le h hs
  obtain ⟨hlt, rfl⟩ := pushPay_next.1 h
  refine ⟨_, pushPay_next.2 ⟨hlt, rfl⟩, ?_, fun a ha => ?_⟩
  · exact sameButBuffer_iff.2 ⟨_, pushPayRegs_withPbuf (s.withPbuf (Memory.write s.pbuf s.cnt.toNat b)) _ b⟩
  · simp only [pushPayRegs_pbuf, withPbuf_pbuf, withPbuf_cnt]
    obtain hlt | rfl : a < s.cnt.toNat ∨ a = s.cnt.toNat := by omega
    · rw [Memory.read_write_other _ b hlt.ne, Memory.read_write_other _ b hlt.ne]
      exact hf a (by rwa [payTaken_pay hs])
    · rw [Memory.read_write_same, Memory.read_write_same]

theorem pushByte_stale {b : Byte} (h : pushByte b s = .next t) (hb : SameButBuffer s s')
    (hf : SameFrameBytes s s') :
    ∃ t', pushByte b s' = .next t' ∧ SameButBuffer t t' ∧ SameFrameBytes t t' := by
  by_cases hs : s.st = .pay
  · have hs' : s'.st = .pay := by rw [← hb]; exact hs
    rw [pushByte_of_pay hs] at h
    rw [pushByte_of_pay hs']
    exact pushPay_stale h hs hb hf
  · obtain ⟨m, rfl⟩ := sameButBuffer_iff.1 hb
    refine ⟨t.withPbuf m, pushByte_withPbuf s m b hs h, rfl, fun a ha => ?_⟩
    rw [pushByte_pbuf h hs]
    exact hf a (ha.trans_le (payTaken_pushByte_le h hs))

theorem memRead_of_held {a n : Nat} (h : 1 ≤ n ∧ a + n ≤ s.len.toNat ∧ s.st = .hold) :
    memRead s a n = Memory.readSpan s.pbuf a n := if_pos h

theorem memRead_of_not_held {a n : Nat} (h : ¬(1 ≤ n ∧ a + n ≤ s.len.toNat ∧ s.st = .hold)) :
    memRead s a n = .error .pbufReadOutOfRange := if_neg h

theorem memRead_stale {a n : Nat} (hb : SameButBuffer s s') (hf : SameFrameBytes s s') :
    memRead s' a n = memRead s a n := by
  obtain ⟨m, rfl⟩ := sameButBuffer_iff.1 hb
  by_cases h : 1 ≤ n ∧ a + n ≤ s.len.toNat ∧ s.st = .hold
  · rw [memRead_of_held h, memRead_of_held (s := s.withPbuf m) h]
    obtain ⟨-, hle, hs⟩ := h
    exact (Memory.readSpan_congr fun i hi => hf _ (by rw [payTaken_hold hs]; omega)).symm
  · rw [memRead_of_not_held h, memRead_of_not_held (s := s.withPbuf m) h]

theorem fieldRecords_stale (hb : SameButBuffer s s') (hf : SameFrameBytes s s') (ds : List FieldDesc) :
    fieldRecords s' ds = fieldRecords s ds := by
  have hbo : s'.cfg.bo = s.cfg.bo := by rw [← hb]
  have hrec : ∀ d, fieldRecord s' d = fieldRecord s d := fun d => by
    rw [fieldRecord, fieldRecord, memRead_stale hb hf, hbo]
  induction ds with
  | nil => rfl
  | cons d ds ih => rw [fieldRecords, fieldRecords, hrec, ih]

theorem execXdec_stale {k : Byte} (h : execXdec k s = .next t) (hb : SameButBuffer s s')
    (hf : SameFrameBytes s s') : execXdec k s' = .next (t.withPbuf s'.pbuf) := by
  have hrecs := fieldRecords_stale hb hf
  obtain ⟨m, rfl⟩ := sameButBuffer_iff.1 hb
  rw [execXdec_next] at h ⊢
  rcases h with ⟨hs, rfl⟩ | ⟨hs, hk, rfl⟩ | ⟨e, hs, hk, he⟩
  · exact .inl ⟨hs, rfl⟩
  · exact .inr (.inl ⟨hs, hk, rfl⟩)
  · refine .inr (.inr ⟨e, hs, hk, extract_next.2 ?_⟩)
    rcases extract_next.1 he with ⟨hlt, rfl⟩ | ⟨hle, recs, hr, rfl⟩
    · exact .inl ⟨hlt, rfl⟩
    · exact .inr ⟨hle, recs, (hrecs e.fields).trans hr, rfl⟩

/-- Every operation carries states that differ in stale cells only to such states. -/
theorem exec_stale {i : Instr} (h : exec i s = .next t) (hb : SameButBuffer s s') (hf : SameFrameBytes s s') :
    ∃ t', exec i s' = .next t' ∧ SameButBuffer t t' ∧ SameFrameBytes t t' := by
  cases exec_next.1 h with
  | push hi h =>
    rw [exec_of_pushedByte s' hi]
    exact pushByte_stale h hb hf
  | xdec h =>
    refine ⟨_, execXdec_stale h hb hf, rfl, ?_⟩
    rw [execXdec_eq h]
    exact hf
  | rst | flush =>
    obtain ⟨m, rfl⟩ := sameButBuffer_iff.1 hb
    exact ⟨_, rfl, rfl, fun a ha => absurd ha (Nat.not_lt_zero a)⟩
  | reserved hi =>
    obtain ⟨m, rfl⟩ := sameButBuffer_iff.1 hb
    exact ⟨_, exec_of_isReserved _ hi, rfl, hf⟩
  | nop | ginit | gbyte =>
    obtain ⟨m, rfl⟩ := sameButBuffer_iff.1 hb
    exact ⟨_, rfl, rfl, hf⟩

theorem runsTo_stale {is : List Instr} {rs : List Result} (h : RunsTo is s t rs) (hb : SameButBuffer s s')
    (hf : SameFrameBytes s s') : ∃ t', RunsTo is s' t' rs ∧ SameButBuffer t t' ∧ SameFrameBytes t t' := by
  induction is generalizing s s' rs with
  | nil =>
    obtain ⟨rfl, rfl⟩ := runsTo_nil.1 h
    exact ⟨s', by simp, hb, hf⟩
  | cons i is ih =>
    obtain ⟨u, rs', hx, hr, rfl⟩ := runsTo_cons.1 h
    obtain ⟨u', hx', hbu, hfu⟩ := exec_stale hx hb hf
    obtain ⟨t', hr', hbt, hft⟩ := ih hr hbu hfu
    have hout : u'.out = u.out := by rw [← hbu]
    exact ⟨t', runsTo_cons.2 ⟨u', rs', hx', hr', by rw [hout]⟩, hbt, hft⟩

theorem observe_of_not_hold (hs : s.st ≠ .hold) :
    observe s = ⟨s.out, s.status, s.fOpc, s.fLen, s.fIdx, []⟩ := by
  simp [observe, hs]

/-- The outputs read the buffer below `len` in `HOLD` only (R34). -/
theorem observe_stale (hb : SameButBuffer s s') (hf : SameFrameBytes s s') : observe s = observe s' := by
  obtain ⟨m, rfl⟩ := sameButBuffer_iff.1 hb
  by_cases hs : s.st = .hold
  · have hpay : s.payload = (s.withPbuf m).payload := by
      refine List.map_congr_left fun i hi => ?_
      have hlt := List.mem_range.1 hi
      have hcell := hf i (by rwa [payTaken_hold hs])
      simpa [State.pay, hs, hlt] using hcell
    simp only [observe, hpay]
    rfl
  · rw [observe_of_not_hold hs, observe_of_not_hold (s := s.withPbuf m) hs]
    rfl

end Stale

/-- Settles O57: the runs stay alike by `runsTo_stale`, and at the end the outputs read cells of the frame only. -/
theorem staleBytesAreUnobservable : Obligations.StaleBytesAreUnobservable := by
  intro is s s' t rs _ hb hf h
  obtain ⟨t', hr, hbt, hft⟩ := runsTo_stale h hb hf
  exact ⟨t', hr, observe_stale hbt hft, by rw [← hbt]; rfl⟩

end Sys2Proof.Machine
end

section
/-! Buffer writes (spec 20_memory.md R51): which operation writes the buffer, and where. -/

namespace Sys2Proof.Machine

open Sys2Proof

theorem isPush_of_pushedByte {i : Instr} {b : Byte} (hb : pushedByte i = some b) : isPush i = true := by
  cases i <;> cases hb <;> rfl

theorem exec_pbuf_of_pushedByte_none {i : Instr} {s t : State} (h : exec i s = .next t) (hi : pushedByte i = none) :
    t.pbuf = s.pbuf := by
  cases exec_next.1 h with
  | push hb => rw [hi] at hb; cases hb
  | xdec h => rw [execXdec_eq h]
  | nop | rst | flush | ginit | gbyte | reserved => simp

/-- Settles O32: of a pushed byte `pushByte_frame` says where it is stored, and no other operation stores one. -/
theorem bufferWrittenOnlyByPayloadBytes : Obligations.BufferWrittenOnlyByPayloadBytes := by
  intro i s t h
  cases hb : pushedByte i with
  | none =>
    have hbuf := exec_pbuf_of_pushedByte_none h hb
    exact ⟨fun _ => hbuf, fun a _ => by rw [hbuf]⟩
  | some b =>
    rw [exec_of_pushedByte s hb] at h
    obtain ⟨-, -, -, -, -, hbuf, hother⟩ := pushByte_frame h
    exact ⟨fun hpay => hbuf fun hs => hpay ⟨isPush_of_pushedByte hb, hs⟩, hother⟩

end Sys2Proof.Machine
end

section
/-! Receive path and generator (spec 20_memory.md R64; 10_state.md R27): every operation but GINIT, GBYTE and RST
does the same over any `gacc`, which it leaves alone. -/

namespace Sys2Proof.Machine

open Sys2Proof

/-! ### What XDEC reads -/

/-- The records of a schema are read from the byte order, `len`, `st` and the buffer (R52, R194). -/
theorem fieldRecords_congr {s s' : State} (hcfg : s'.cfg = s.cfg) (hst : s'.st = s.st) (hlen : s'.len = s.len)
    (hpbuf : s'.pbuf = s.pbuf) (ds : List FieldDesc) : fieldRecords s' ds = fieldRecords s ds := by
  have hrec : ∀ d, fieldRecord s' d = fieldRecord s d := fun d => by
    rw [fieldRecord, fieldRecord, memRead, memRead, hcfg, hst, hlen, hpbuf]
  induction ds with
  | nil => rfl
  | cons d ds ih => rw [fieldRecords, fieldRecords, hrec, ih]

/-- XDEC gives the same result in states that agree on the configuration, `st`, `len` and the buffer. -/
theorem execXdec_congr {k : Byte} {s s' t : State} (h : execXdec k s = .next t) (hcfg : s'.cfg = s.cfg)
    (hst : s'.st = s.st) (hlen : s'.len = s.len) (hpbuf : s'.pbuf = s.pbuf) :
    execXdec k s' = .next { s' with out := t.out } := by
  rw [execXdec_next] at h ⊢
  rw [← hst, ← hcfg] at h
  rcases h with ⟨hs, rfl⟩ | ⟨hs, hk, rfl⟩ | ⟨e, hs, hk, he⟩
  · exact .inl ⟨hs, rfl⟩
  · exact .inr (.inl ⟨hs, hk, rfl⟩)
  · refine .inr (.inr ⟨e, hs, hk, extract_next.2 ?_⟩)
    rw [extract_next, ← hlen, ← fieldRecords_congr hcfg hst hlen hpbuf] at he
    rcases he with ⟨hlt, rfl⟩ | ⟨hle, recs, hr, rfl⟩
    · exact .inl ⟨hlt, rfl⟩
    · exact .inr ⟨hle, recs, hr, rfl⟩

/-! ### A pushed byte over another generator accumulator -/

/-- The state with another generator accumulator. -/
def State.withGacc (s : State) (g : Nat) : State := { s with gacc := g }

section Gacc
variable (s : State) (g : Nat) (b : Byte)

@[simp] theorem withGacc_st : (s.withGacc g).st = s.st := rfl

theorem raise_withGacc (e : Event) : raise e (s.withGacc g) = (raise e s).withGacc g := by
  cases e <;> rfl

theorem pushHunt_withGacc : pushHunt b (s.withGacc g) = (pushHunt b s).withGacc g := by
  simp only [pushHunt, apply_ite (State.withGacc · g)]
  rfl

theorem pushOpc_withGacc : pushOpc b (s.withGacc g) = (pushOpc b s).withGacc g := rfl

theorem pushLen_withGacc : pushLen b (s.withGacc g) = (pushLen b s).withGacc g := by
  simp only [pushLen, apply_ite (State.withGacc · g)]
  rfl

theorem pushPayRegs_withGacc : pushPayRegs b (s.withGacc g) = (pushPayRegs b s).withGacc g := by
  simp only [pushPayRegs, apply_ite (State.withGacc · g)]
  rfl

theorem pushTrl_withGacc : pushTrl b (s.withGacc g) = (pushTrl b s).withGacc g := by
  simp only [pushTrl, apply_ite (State.withGacc · g), ← raise_withGacc]
  rfl

theorem pushPay_withGacc {t : State} (h : pushPay b s = .next t) :
    pushPay b (s.withGacc g) = .next (t.withGacc g) := by
  obtain ⟨hlt, rfl⟩ := pushPay_next.1 h
  exact pushPay_next.2 ⟨hlt, (pushPayRegs_withGacc _ g b).symm⟩

/-- A pushed byte neither reads nor writes the generator's accumulator. -/
theorem pushByte_withGacc {t : State} (h : pushByte b s = .next t) :
    pushByte b (s.withGacc g) = .next (t.withGacc g) := by
  rw [pushByte_next] at h ⊢
  rcases h with ⟨hs, rfl⟩ | ⟨hs, rfl⟩ | ⟨hs, rfl⟩ | ⟨hs, h⟩ | ⟨hs, rfl⟩ | ⟨hs, rfl⟩
  · simp [hs, pushHunt_withGacc]
  · simp [hs, pushOpc_withGacc]
  · simp [hs, pushLen_withGacc]
  · simp [hs, pushPay_withGacc s g b h]
  · simp [hs, pushTrl_withGacc]
  · simp [hs, raise_withGacc]

end Gacc

/-! ### Each operation -/

section Operations
variable {i : Instr} {s t : State}

/-- The generator's operations write `gacc` and the result only (R147, R148). -/
theorem exec_eq_of_generator (h : exec i s = .next t) (hi : i = .ginit ∨ ∃ b, i = .gbyte b) :
    t = { s with gacc := t.gacc, out := t.out } := by
  obtain rfl | ⟨b, rfl⟩ := hi <;> (cases h; rfl)

theorem exec_gacc (h : exec i s = .next t) (hg : i ≠ .ginit) (hb : ∀ b, i ≠ .gbyte b) (hr : i ≠ .rst) :
    t.gacc = s.gacc := by
  cases exec_next.1 h with
  | push _ h =>
    obtain ⟨-, -, hgacc, -⟩ := pushByte_frame h
    exact hgacc
  | xdec h => rw [execXdec_eq h]
  | ginit => exact absurd rfl hg
  | gbyte b => exact absurd rfl (hb b)
  | rst => exact absurd rfl hr
  | nop | flush | reserved => simp

theorem exec_withGacc (h : exec i s = .next t) (hg : i ≠ .ginit) (hb : ∀ b, i ≠ .gbyte b) (hr : i ≠ .rst)
    (g : Nat) : exec i (s.withGacc g) = .next (t.withGacc g) := by
  cases exec_next.1 h with
  | push hi h => rw [exec_of_pushedByte _ hi, pushByte_withGacc s g _ h]
  | xdec h =>
    have hx := execXdec_congr (s' := s.withGacc g) h rfl rfl rfl rfl
    exact hx.trans (by rw [execXdec_eq h]; rfl)
  | ginit => exact absurd rfl hg
  | gbyte b => exact absurd rfl (hb b)
  | rst => exact absurd rfl hr
  | reserved hi => exact exec_of_isReserved _ hi
  | nop | flush => rfl

end Operations

/-- Settles O31: the generator's operations write their own accumulator, and the others answer alike over any. -/
theorem receiveAndGeneratorAreDisjoint : Obligations.ReceiveAndGeneratorAreDisjoint := by
  refine fun i s t h => ⟨exec_eq_of_generator h, fun hg hb hr => ?_, ?_⟩
  · exact ⟨exec_gacc h hg hb hr, exec_withGacc h hg hb hr⟩
  · rintro rfl
    cases h
    simp

end Sys2Proof.Machine
end

section
/-! Byte order (spec 20_memory.md R55): `asm` as a weighted sum, the bytes of `ser`, and that `asm` undoes `ser`. -/

namespace Sys2Proof.Machine

open Sys2Proof

theorem asmLE_eq_sum (s : List Byte) :
    asmLE s = ∑ i ∈ Finset.range s.length, (s.getD i 0).toNat * 2 ^ (8 * i) := by
  induction s with
  | nil => rfl
  | cons b s ih =>
    rw [asmLE, ih, List.length_cons, Finset.sum_range_succ', Finset.mul_sum, Nat.add_comm]
    congr 1
    · refine Finset.sum_congr rfl fun i _ => ?_
      rw [List.getD_cons_succ, Nat.mul_succ, pow_add]
      ring
    · simp

/-- In `BE` the byte of weight `i` in the reversed string has the weight `n - 1 - i` in the string. -/
theorem asmBE_eq_sum (s : List Byte) :
    asmBE s = ∑ i ∈ Finset.range s.length, (s.getD i 0).toNat * 2 ^ (8 * (s.length - 1 - i)) := by
  rw [asmBE, asmLE_eq_sum, List.length_reverse, ← Finset.sum_range_reflect]
  refine Finset.sum_congr rfl fun i hi => ?_
  have hlt := Finset.mem_range.1 hi
  rw [List.getD_eq_getElem?_getD, List.getD_eq_getElem?_getD, List.getElem?_reverse (by omega)]
  congr 4
  omega

theorem serLE_getElem? (v : Nat) {n i : Nat} (hi : i < n) :
    (serLE v n)[i]? = some (BitVec.ofNat 8 (v / 2 ^ (8 * i))) := by
  simp [serLE, hi, Nat.shiftRight_eq_div_pow]

theorem serBE_getElem? (v : Nat) {n i : Nat} (hi : i < n) :
    (serBE v n)[i]? = some (BitVec.ofNat 8 (v / 2 ^ (8 * (n - 1 - i)))) := by
  simp [serBE, hi, Nat.shiftRight_eq_div_pow]

/-- `asm_LE` of the `n` low bytes of `v` is `v` modulo `2^(8n)`. -/
theorem asmLE_serLE (v n : Nat) : asmLE (serLE v n) = v % 2 ^ (8 * n) := by
  induction n with
  | zero => simp [serLE, asmLE, Nat.mod_one]
  | succ n ih =>
    have hlast : serLE v (n + 1) = serLE v n ++ [BitVec.ofNat 8 (v >>> (8 * n))] := by
      simp [serLE, List.range_succ]
    have hlen : (serLE v n).length = n := ser_length .le v n
    rw [hlast, asmLE_append, ih, hlen, Nat.mul_succ, pow_add, Nat.mod_mul]
    simp [asmLE, Nat.shiftRight_eq_div_pow]

theorem asm_ser (bo : ByteOrder) {v n : Nat} (hv : v < 2 ^ (8 * n)) : asm bo (ser bo v n) = v := by
  have hle : asmLE (serLE v n) = v := by rw [asmLE_serLE, Nat.mod_eq_of_lt hv]
  cases bo with
  | le => exact hle
  | be => rw [asm, ser, asmBE, serBE_eq_reverse, List.reverse_reverse, hle]

/-- Settles O36: each clause is its lemma, the bytes of `ser` in either order. -/
theorem asmAndSerAreInverse : Obligations.AsmAndSerAreInverse := by
  refine ⟨fun s => ⟨asmLE_eq_sum s, asmBE_eq_sum s⟩, fun bo v n i hi => ?_, fun bo _ _ => asm_ser bo, ser_asm,
    fun b => ⟨asm_singleton .le b, asm_singleton .be b⟩⟩
  cases bo with
  | le => exact serLE_getElem? v hi
  | be => exact serBE_getElem? v hi

end Sys2Proof.Machine
end

section
/-! Buffer faults (spec 20_memory.md R52, R59; log entries 14, 15): where an access of the buffer stops, and that
under the invariant none does. -/

namespace Sys2Proof.Machine

open Sys2Proof

/-! ### What stops an operation -/

theorem pushPay_fault {b : Byte} {s : State} (h : s.cfg.lenMax ≤ s.cnt.toNat) :
    pushPay b s = .fault .pbufWriteOutOfRange := by
  rw [pushPay, memWrite_error.2 ⟨h, rfl⟩]

theorem execXdec_fault {k : Byte} {s : State} {e : CatEntry} {f : Fault} (hs : s.st = .hold)
    (hk : s.cfg.cat[k.toNat]? = some e) (hneed : need e ≤ s.len.toNat) (hf : fieldRecords s e.fields = .error f) :
    execXdec k s = .fault f := by
  simp [execXdec, indexOperand, extract, hs, hk, Nat.not_lt.2 hneed, hf]

/-- The first descriptor that has no record stops the extraction, by its own fault. -/
theorem fieldRecords_error_of_first {s : State} {before after : List FieldDesc} {d : FieldDesc} {f : Fault}
    (hbefore : ∀ x ∈ before, ∃ r, fieldRecord s x = .ok r) (hd : fieldRecord s d = .error f) :
    fieldRecords s (before ++ d :: after) = .error f := by
  induction before with
  | nil => simp [fieldRecords, hd]
  | cons x xs ih =>
    obtain ⟨⟨r, hr⟩, hxs⟩ := List.forall_mem_cons.1 hbefore
    simp [fieldRecords, hr, ih hxs]

/-! ### When a descriptor has a record -/

/-- Every descriptor of an entry ends within the entry's `need` (R176). -/
theorem le_need {e : CatEntry} {d : FieldDesc} (hd : d ∈ e.fields) : d.offset + d.width ≤ need e := by
  unfold need
  generalize e.fields = ds at hd ⊢
  induction ds with
  | nil => cases hd
  | cons x xs ih =>
    rcases List.mem_cons.1 hd with rfl | hd
    · exact le_max_left _ _
    · exact (ih hd).trans (le_max_right _ _)

section Record
variable {s : State} {d : FieldDesc}

theorem fieldRecord_exists (hs : s.st = .hold) (hfit : d.offset + d.width ≤ s.len.toNat) (hw : 1 ≤ d.width)
    (hwritten : ∀ i, i < d.width → (Memory.read s.pbuf (d.offset + i)).isSome = true) :
    ∃ r, fieldRecord s d = .ok r := by
  obtain ⟨bs, hbs⟩ := Memory.readSpan_exists hwritten
  exact ⟨_, fieldRecord_ok.2 ⟨bs, (memRead_of_held ⟨hw, hfit, hs⟩).trans hbs, rfl⟩⟩

theorem fieldRecord_error_of_memRead {f : Fault} (h : memRead s d.offset d.width = .error f) :
    fieldRecord s d = .error f := by
  rw [fieldRecord, h]

theorem fieldRecord_of_width_zero (hw : d.width = 0) : fieldRecord s d = .error .pbufReadOutOfRange :=
  fieldRecord_error_of_memRead (memRead_of_not_held (by simp [hw]))

theorem fieldRecord_of_unwritten (hs : s.st = .hold) (hfit : d.offset + d.width ≤ s.len.toNat)
    (hu : ∃ i, i < d.width ∧ Memory.read s.pbuf (d.offset + i) = none) :
    fieldRecord s d = .error .pbufReadUnwritten := by
  have hw : 1 ≤ d.width := by
    obtain ⟨i, hi, -⟩ := hu
    omega
  exact fieldRecord_error_of_memRead (memRead_error.2 (.inr ⟨⟨hw, hfit, hs⟩, rfl, hu⟩))

end Record

/-! ### Under the invariant -/

theorem Inv.cnt_lt_lenMax {s : State} (hi : Inv s) (hs : s.st = .pay) : s.cnt.toNat < s.cfg.lenMax := by
  obtain ⟨hcnt, hlen, -⟩ := (frameOk_pay hs).1 hi.frameOk
  exact hcnt.trans_le hlen

theorem Inv.one_le_width {s : State} (hi : Inv s) {e : CatEntry} (he : e ∈ s.cfg.cat) {d : FieldDesc}
    (hd : d ∈ e.fields) : 1 ≤ d.width := by
  obtain ⟨-, -, -, -, hcat⟩ := (cfgWf_iff s.cfg).1 hi.config
  obtain ⟨-, -, hentry⟩ := (catWf_iff _ _ _).1 hcat
  obtain ⟨-, -, hfield⟩ := (entryWf_iff _ _ _).1 (hentry e he)
  exact ((fieldWf_iff _ _).1 (hfield d hd)).1

/-- Settles O17: the first descriptor without a record is the one named, and under the invariant every cell of the
held payload is written. -/
theorem bufferFaultsOutsideReachableStates : Obligations.BufferFaultsOutsideReachableStates := by
  refine ⟨fun s b hs hcnt => ?_, fun s k e before after d hs hk hneed hfields hbefore => ?_, fun s hi => ?_⟩
  · rw [exec_of_pushedByte s rfl, pushByte_of_pay hs, pushPay_fault hcnt]
  · have hfit : ∀ x ∈ before ++ d :: after, x.offset + x.width ≤ s.len.toNat :=
      fun x hx => (le_need (hfields ▸ hx)).trans hneed
    have hrecords : ∀ x ∈ before, ∃ r, fieldRecord s x = .ok r := fun x hx =>
      have ⟨hw, hwritten⟩ := hbefore x hx
      fieldRecord_exists hs (hfit x (List.mem_append_left _ hx)) hw hwritten
    have hstop : ∀ f, fieldRecord s d = .error f → exec (.xdec k) s = .fault f := fun f hf =>
      execXdec_fault hs hk hneed (hfields ▸ fieldRecords_error_of_first hrecords hf)
    exact ⟨fun hw => hstop _ (fieldRecord_of_width_zero hw),
      fun hu => hstop _ (fieldRecord_of_unwritten hs (hfit d (by simp)) hu)⟩
  · refine ⟨hi.cnt_lt_lenMax, fun k e hs hk hneed d hd => ⟨hi.one_le_width (List.mem_of_getElem? hk) hd, ?_⟩⟩
    intro i hlt
    have hfit := (le_need hd).trans hneed
    exact hi.written (by rw [payTaken_hold hs]; omega)

end Sys2Proof.Machine
end

section
/-! Command words (spec 30_encoding.md R82 to R89): the operation map as a relation between the two fields of a word
and its instruction, and what it says of decoding, of encoding and of the rows of the opcode table. -/

namespace Sys2Proof

/-! ### The two fields of a word -/

@[simp] theorem opField_commandWord (op : BitVec 4) (arg : Byte) : opField (commandWord op arg) = op :=
  BitVec.extractLsb'_append_eq_left

@[simp] theorem argField_commandWord (op : BitVec 4) (arg : Byte) : argField (commandWord op arg) = arg :=
  BitVec.extractLsb'_append_eq_right

/-- A word is its two fields (R82). -/
theorem commandWord_fields (w : CmdWord) : commandWord (opField w) (argField w) = w :=
  BitVec.extractLsb'_append_extractLsb' (w := 4) (len := 8)

/-- The mask of a command row keeps the operation code and clears the argument. -/
theorem and_opMask (w : CmdWord) : w &&& 0xF00 = commandWord (opField w) 0 :=
  calc w &&& 0xF00
    _ = opField w ++ argField w &&& BitVec.allOnes 4 ++ 0#8 := congrArg (· &&& _) (commandWord_fields w).symm
    _ = commandWord (opField w) 0 := by rw [BitVec.and_append, BitVec.and_allOnes, BitVec.and_zero, commandWord]; rfl

/-! ### The operation map -/

/-- The operation map of R83 with the reserved codes of R85, as a relation of operation code, argument and
instruction. `decodeCommand_eq_iff` ties it to the decoder. -/
inductive OpRow : BitVec 4 → Byte → Instr → Prop where
  | nop (arg : Byte) : OpRow 0x0 arg .nop
  | rst (arg : Byte) : OpRow 0x1 arg .rst
  | flush (arg : Byte) : OpRow 0x2 arg .flush
  | push (arg : Byte) : OpRow 0x3 arg (.push arg)
  | xdec (arg : Byte) : OpRow 0x4 arg (.xdec arg)
  | ginit (arg : Byte) : OpRow 0x5 arg .ginit
  | gbyte (arg : Byte) : OpRow 0x6 arg (.gbyte arg)
  | reserved7 (arg : Byte) : OpRow 0x7 arg .reserved7
  | reserved8 (arg : Byte) : OpRow 0x8 arg .reserved8
  | reserved9 (arg : Byte) : OpRow 0x9 arg .reserved9
  | reservedA (arg : Byte) : OpRow 0xA arg .reservedA
  | reservedB (arg : Byte) : OpRow 0xB arg .reservedB
  | reservedC (arg : Byte) : OpRow 0xC arg .reservedC
  | reservedD (arg : Byte) : OpRow 0xD arg .reservedD
  | reservedE (arg : Byte) : OpRow 0xE arg .reservedE
  | reservedF (arg : Byte) : OpRow 0xF arg .reservedF

/-- Every word has a row (R88). -/
theorem decodeCommand_row (w : CmdWord) : OpRow (opField w) (argField w) (decodeCommand w) := by
  unfold decodeCommand
  obtain ⟨⟨n, hn⟩⟩ := opField w
  change n < 16 at hn
  interval_cases n <;> constructor

section Row
variable {op : BitVec 4} {arg : Byte} {i : Instr}

theorem OpRow.unique {j : Instr} (hi : OpRow op arg i) (hj : OpRow op arg j) : i = j := by
  cases hi <;> cases hj <;> rfl

theorem decodeCommand_eq_iff {w : CmdWord} : decodeCommand w = i ↔ OpRow (opField w) (argField w) i :=
  ⟨fun h => h ▸ decodeCommand_row w, (decodeCommand_row w).unique⟩

theorem OpRow.decodeCommand (h : OpRow op arg i) : decodeCommand (commandWord op arg) = i := by
  simpa [decodeCommand_eq_iff] using h

/-- The encoder writes the argument where the operation has an operand, and 0 where it ignores it (R84). -/
theorem OpRow.encode (h : OpRow op arg i) :
    encode i = .command (commandWord op (if op = 0x3 ∨ op = 0x4 ∨ op = 0x6 then arg else 0)) := by
  cases h <;> rfl

theorem OpRow.isReserved (h : OpRow op arg i) (hop : 7 ≤ op.toNat) : Machine.isReserved i = true := by
  cases h with
  | nop | rst | flush | push | xdec | ginit | gbyte => exact absurd hop (by decide)
  | reserved7 | reserved8 | reserved9 | reservedA | reservedB | reservedC | reservedD | reservedE
  | reservedF => rfl

/-- The opcode table lists the operation map in order of the operation code. -/
theorem OpRow.tableRow (h : OpRow op arg i) :
    ∃ r, opcodeTable[op.toNat]? = some r ∧ r.format = .cw12 ∧ r.mask = 0xF00 ∧ r.pattern = commandWord op 0 ∧
      i.mnemonic = r.mnemonic := by
  cases h <;> exact ⟨_, rfl, rfl, rfl, rfl, rfl⟩

end Row

/-! ### The bits of an input -/

/-- The bits that an input's word is written in give the input back (log entry 11). -/
theorem inputOfWord_wordOfInput {x : HostInput} {nbits w : Nat} (h : wordOfInput x = some (nbits, w)) :
    inputOfWord nbits w = .ok x := by
  cases x with
  | command v => cases h; exact Machine.inputOfWord_command v
  | wire b => cases h; simp [inputOfWord]
  | hardwareReset => cases h

/-- An input that is an instruction has a word, and the table's reading of it is that instruction. -/
theorem exists_word_of_decodeInput {x : HostInput} {i : Instr} (h : decodeInput x = some i) :
    ∃ nbits w, wordOfInput x = some (nbits, w) ∧ decodeTableWord nbits w = some i := by
  have read : ∀ nbits w, wordOfInput x = some (nbits, w) → decodeTableWord nbits w = some i := by
    intro nbits w hw
    simp only [decodeTableWord, inputOfWord_wordOfInput hw, h]
  cases x with
  | command v => exact ⟨_, _, rfl, read _ _ rfl⟩
  | wire b => exact ⟨_, _, rfl, read _ _ rfl⟩
  | hardwareReset => cases h

theorem OpRow.decodeTableWord {op : BitVec 4} {arg : Byte} {i : Instr} (h : OpRow op arg i) :
    decodeTableWord 16 (commandWord op arg).toNat = some i := by
  rw [Sys2Proof.decodeTableWord, Machine.inputOfWord_command]
  exact congrArg some h.decodeCommand

/-- R88, the instruction's side: its canonical encoding decodes to it. -/
theorem decodeInput_encode (i : Instr) : decodeInput (encode i) = some i := by
  have command : ∀ {op arg}, OpRow op arg i → encode i = .command (commandWord op arg) →
      decodeInput (encode i) = some i := by
    intro op arg hrow henc
    rw [henc]
    exact congrArg some hrow.decodeCommand
  cases i with
  | wireQueryStatus | wireTestInts | wireTestFlags | wireTestEmpty => rfl
  | push b | xdec b | gbyte b => exact command (by constructor) rfl
  | _ => exact command (arg := 0) (by constructor) rfl

/-! ### The rows that cover a word -/

/-- The command rows have patterns of their own. -/
theorem opcodeTable_pattern_injective :
    ∀ r ∈ opcodeTable, ∀ r' ∈ opcodeTable, r.format = .cw12 → r'.format = .cw12 → r.pattern = r'.pattern → r = r' := by
  decide

theorem mask_of_cw12 : ∀ r ∈ opcodeTable, r.format = .cw12 → r.mask = 0xF00 := by
  decide

/-- A row of the table covers a command word when it is a command row and its pattern is the word's operation
code. -/
theorem covers_command_iff {r : TableRow} (hr : r ∈ opcodeTable) (w : CmdWord) :
    r.covers (.command w) = true ↔ r.format = .cw12 ∧ r.pattern = commandWord (opField w) 0 := by
  simp only [TableRow.covers, Bool.and_eq_true, beq_iff_eq]
  refine and_congr_right fun hf => ?_
  rw [mask_of_cw12 r hr hf, and_opMask, eq_comm]

/-! ### The obligations -/

/-- Settles O20: an instruction's encoding is a word of its own row, and the row of a word says which argument the
encoder writes. -/
theorem decodeAndEncodeAgree : Obligations.DecodeAndEncodeAgree := by
  refine ⟨fun i => ⟨decodeInput_encode i, exists_word_of_decodeInput (decodeInput_encode i)⟩, fun w => ?_⟩
  have henc := (decodeCommand_row w).encode
  refine ⟨fun hop => ?_, fun hop => ?_⟩
  · rw [henc, if_pos hop, commandWord_fields]
  · rw [henc, if_neg hop]

/-- Settles O19: the row of the word's operation code covers it, and a row that covers it has that row's pattern. -/
theorem everyCommandWordHasOneRow : Obligations.EveryCommandWordHasOneRow := by
  intro w
  obtain ⟨r, hget, hformat, -, hpattern, hmnemonic⟩ := (decodeCommand_row w).tableRow
  have hr := List.mem_of_getElem? hget
  refine ⟨r, hr, (covers_command_iff hr w).2 ⟨hformat, hpattern⟩, hmnemonic, fun r' hr' hcov => ?_⟩
  obtain ⟨hformat', hpattern'⟩ := (covers_command_iff hr' w).1 hcov
  exact opcodeTable_pattern_injective r' hr' r hr hformat' hformat (hpattern'.trans hpattern.symm)

/-- Settles O18: each word written out is its row's operation code followed by its argument. -/
theorem wordsOfTheTableDecode : Obligations.WordsOfTheTableDecode :=
  ⟨(OpRow.nop 0x00).decodeTableWord, (OpRow.nop 0xAB).decodeTableWord, (OpRow.rst 0x00).decodeTableWord,
    (OpRow.flush 0x00).decodeTableWord, (OpRow.push 0xA5).decodeTableWord, (OpRow.xdec 0x04).decodeTableWord,
    (OpRow.ginit 0x00).decodeTableWord, (OpRow.gbyte 0x51).decodeTableWord,
    (OpRow.reserved7 0xFF).decodeTableWord, (OpRow.reservedF 0x00).decodeTableWord, rfl, rfl⟩

end Sys2Proof
end

section
/-! Reserved codes and FRAME rows (spec 30_encoding.md R85, R89; 40_delimiter.md R104, R106). -/

namespace Sys2Proof.Machine

open Sys2Proof

/-- Settles O15: the row of a word says that it is reserved, and the nine reserved codes have one effect. -/
theorem reservedCodesAreIllegalOps : Obligations.ReservedCodesAreIllegalOps := by
  refine ⟨fun w => (decodeCommand_row w).isReserved, fun i s hi => ?_⟩
  have hres : isReserved i = true := by revert i; decide
  exact exec_of_isReserved s hres

theorem pushByte_of_opc {s : State} (b : Byte) (hs : s.st = .opc) : pushByte b s = .next (pushOpc b s) := by
  simp [pushByte, hs]

/-- Settles O16: a FRAME row gives its byte to FDL as PUSH does, and FDL in `OPC` takes it as the opcode. -/
theorem wireOpcodesAreFrameByteOne : Obligations.WireOpcodesAreFrameByteOne := by
  intro i o hio s
  have hbyte : pushedByte i = some o := by fin_cases hio <;> rfl
  have hrow : exec i s = pushByte o s := exec_of_pushedByte s hbyte
  refine ⟨hrow.trans (exec_of_pushedByte s rfl).symm, fun hs => ?_⟩
  rw [hrow, pushByte_of_opc o hs]
  rfl

end Sys2Proof.Machine
end

section
/-! Encoded frames (spec 30_encoding.md R70 to R79; 41_integrity.md R140 to R143): a checksum fits its trailer, where
the parts of a frame stand, and that the encoder's frame is valid. -/

namespace Sys2Proof.Machine

open Sys2Proof

/-! ### Checksums fit `W` bits -/

theorem reflect_lt {w : Nat} (hw : w ≤ 32) (v : AlgWord) : (reflect w v).toNat < 2 ^ w := by
  rw [← and_mask_eq_iff_lt w hw, and_mask_eq_iff w hw]
  intro i hi
  simp [getLsbD_reflect w v i hw, Nat.not_lt.2 hi]

theorem and_mask_lt {w : Nat} (hw : w ≤ 32) (v : AlgWord) : (v &&& mask w).toNat < 2 ^ w := by
  rw [← and_mask_eq_iff_lt w hw, BitVec.and_assoc, BitVec.and_self]

theorem toNat_xor_lt {w : Nat} {u v : AlgWord} (hu : u.toNat < 2 ^ w) (hv : v.toNat < 2 ^ w) :
    (u ^^^ v).toNat < 2 ^ w := by
  rw [BitVec.toNat_xor]
  exact Nat.xor_lt_two_pow hu hv

theorem mask_lt {w : Nat} (hw : w ≤ 32) : (mask w).toNat < 2 ^ w := by
  simpa using and_mask_lt hw (mask w)

theorem crcFin_lt {w : Nat} (hw : w ≤ 32) (refout : Bool) {xorout a : AlgWord} (hx : xorout.toNat < 2 ^ w)
    (ha : a.toNat < 2 ^ w) : (crcFin w refout xorout a).toNat < 2 ^ w := by
  refine toNat_xor_lt ?_ hx
  split
  · exact reflect_lt hw a
  · exact ha

theorem sumFin_lt {w : Nat} (hw : w ≤ 32) (f : SumFin) {a : AlgWord} (ha : a.toNat < 2 ^ w) :
    (sumFin w f a).toNat < 2 ^ w := by
  cases f with
  | id => exact ha
  | inv => exact toNat_xor_lt ha (mask_lt hw)
  | neg => exact and_mask_lt hw _

/-- `ALG.fin` of a value of `ALG.Acc` is an unsigned `W`-bit value (R140). -/
theorem algFin_lt {alg : Alg} (h : algWf alg = true) {a : Nat} (ha : AccFits alg a) :
    (algFin alg a).toNat < 2 ^ algW alg := by
  have hw := algW_le h
  obtain ⟨-, hcrc, -⟩ := (algWf_iff alg).1 h
  cases alg with
  | crc w poly init refin refout xorout =>
    refine crcFin_lt hw refout (hcrc _ _ _ _ _ _ rfl).2.2 ?_
    rwa [toNat_ofNat_of_fits hw ha]
  | sum w init f =>
    refine sumFin_lt hw f ?_
    rwa [toNat_ofNat_of_fits hw ha]
  | vendor w id => exact and_mask_lt hw _

theorem accFits_absorbAll {alg : Alg} (h : algWf alg = true) {a : Nat} (ha : AccFits alg a) (s : List Byte) :
    AccFits alg (absorbAll alg a s) := by
  induction s generalizing a with
  | nil => exact ha
  | cons b s ih => exact ih (accFits_algAbsorb h a b)

theorem checksum_lt {alg : Alg} (h : algWf alg = true) (s : List Byte) : (checksum alg s).toNat < 2 ^ algW alg :=
  algFin_lt h (accFits_absorbAll h (accFits_algInit h) s)

/-- The trailer has room for `W` bits (R12). -/
theorem eight_mul_trlW {c : Cfg} (h : algWf c.alg = true) : 8 * trlW c = algW c.alg := by
  obtain ⟨hw, -⟩ := (algWf_iff c.alg).1 h
  unfold trlW
  omega

/-! ### The parts of a frame -/

/-- A byte string laid out as R70 lays out a frame, of whatever parts. -/
def frameOf (c : Cfg) (o : Byte) (lenBytes p trailer : List Byte) : List Byte :=
  c.sof :: o :: (lenBytes ++ p ++ trailer)

theorem encodeFrame_eq (c : Cfg) (o : Byte) (p : List Byte) :
    encodeFrame c o p =
      frameOf c o (ser c.bo p.length c.lenW) p
        (ser c.bo (checksum c.alg (covered c o (ser c.bo p.length c.lenW) p)).toNat (trlW c)) := rfl

section Parts
variable {c : Cfg} {o : Byte} {lb p t : List Byte}

theorem frameOf_length : (frameOf c o lb p t).length = 2 + lb.length + p.length + t.length := by
  simp [frameOf]
  omega

theorem frameLen_frameOf (hlb : lb.length = c.lenW) : frameLen c (frameOf c o lb p t) = asm c.bo lb := by
  simp [frameLen, frameOf, ← hlb]

theorem framePayload_frameOf (hlb : lb.length = c.lenW) (hlen : asm c.bo lb = p.length) :
    framePayload c (frameOf c o lb p t) = p := by
  rw [framePayload, frameLen_frameOf hlb, hlen, frameOf, ← hlb, Nat.add_comm]
  simp

/-- What stands before the trailer. -/
theorem take_frameOf (ht : t.length = trlW c) :
    (frameOf c o lb p t).take ((frameOf c o lb p t).length - trlW c) = c.sof :: o :: (lb ++ p) := by
  have hsplit : frameOf c o lb p t = (c.sof :: o :: (lb ++ p)) ++ t := rfl
  rw [hsplit, List.length_append, ← ht, Nat.add_sub_cancel, List.take_left]

theorem drop_frameOf (ht : t.length = trlW c) :
    (frameOf c o lb p t).drop ((frameOf c o lb p t).length - trlW c) = t := by
  have hsplit : frameOf c o lb p t = (c.sof :: o :: (lb ++ p)) ++ t := rfl
  rw [hsplit, List.length_append, ← ht, Nat.add_sub_cancel, List.drop_left]

theorem frameCovered_frameOf (ht : t.length = trlW c) : frameCovered c (frameOf c o lb p t) = covered c o lb p := by
  rw [frameCovered, take_frameOf ht, covered]
  split <;> rfl

/-- R78 of a string laid out as a frame: its parts have their lengths, the length field holds the payload's length
and the trailer the checksum. -/
theorem frameWf_frameOf (hlb : lb.length = c.lenW) (ht : t.length = trlW c) (hlen : asm c.bo lb = p.length)
    (hmax : p.length ≤ c.lenMax) (hsum : asm c.bo t = (checksum c.alg (covered c o lb p)).toNat) :
    frameWf c (frameOf c o lb p t) = true := by
  have hhead : (frameOf c o lb p t)[0]? = some c.sof := rfl
  have hsize : (frameOf c o lb p t).length = 2 + c.lenW + p.length + trlW c := by rw [frameOf_length, hlb, ht]
  simp only [frameWf, frameLen_frameOf hlb, hlen, drop_frameOf ht, frameCovered_frameOf ht, hhead, hsum,
    Bool.and_eq_true, decide_eq_true_eq, beq_iff_eq, hmax, and_true]
  omega

end Parts

/-! ### The obligation -/

/-- Settles O48: the length field and the trailer hold what `ser` wrote, since the length fits by `LEN_MAX` and a
checksum fits the trailer. -/
theorem encodedFramesAreValid : Obligations.EncodedFramesAreValid := by
  intro c o p hc hmax
  obtain ⟨-, hlenMax, halg, -, -⟩ := (cfgWf_iff c).1 hc
  have hlen : asm c.bo (ser c.bo p.length c.lenW) = p.length := asm_ser c.bo (hmax.trans_lt hlenMax)
  have hsum := asm_ser (n := trlW c) c.bo
    (eight_mul_trlW halg ▸ checksum_lt halg (covered c o (ser c.bo p.length c.lenW) p))
  have hlb := ser_length c.bo p.length c.lenW
  rw [encodeFrame_eq]
  refine ⟨frameWf_frameOf hlb (ser_length _ _ _) hlen hmax hsum, rfl, ?_, framePayload_frameOf hlb hlen, ?_⟩
  · rw [frameLen_frameOf hlb, hlen]
  · rw [frameOf_length, hlb, ser_length]

end Sys2Proof.Machine
end

section
/-! FDL's operations (spec 40_delimiter.md R101 to R111): NOP, RST and FLUSH, PUSH in each state of the sequencer, the
transition table, and the shifter over a whole string. -/

namespace Sys2Proof.Machine

open Sys2Proof

/-! ### NOP, RST, FLUSH -/

/-- Settles O1: the row of operation code 0 has no operand, and NOP raises nothing. -/
theorem nopReturnsNoneAndWritesNothing : Obligations.NopReturnsNoneAndWritesNothing :=
  ⟨fun arg => (OpRow.nop arg).decodeCommand, fun _ => rfl⟩

/-- `STATUS` while hunting with both flags clear (R33). -/
theorem status_of_hunt {s : State} (hst : s.st = .hunt) (hres : s.res = .none) (hovr : s.ovr = false) :
    s.status = 0x0200 := by
  simp only [State.status, State.hunting, State.held, State.incomplete, hst, hres, hovr]
  rfl

/-- Settles O2: the registers are those of the reset state, field by field, and `STATUS` is that of `HUNT` with both
flags clear. -/
theorem rstResetsEveryRegister : Obligations.RstResetsEveryRegister := by
  refine ⟨fun arg => (OpRow.rst arg).decodeCommand, fun s => ⟨rfl, fun t ht => ?_⟩⟩
  cases ht
  exact ⟨rfl, status_of_hunt rfl rfl rfl⟩

/-- Settles O3. -/
theorem flushDropsTheFrame : Obligations.FlushDropsTheFrame :=
  ⟨fun arg => (OpRow.flush arg).decodeCommand, fun _ => rfl⟩

/-! ### PUSH, by the state it finds -/

section Push
variable {s : State} (b : Byte)

theorem execPush_of_hunt (hs : s.st = .hunt) : exec (.push b) s = .next (pushHunt b s) := by
  rw [exec_of_pushedByte s rfl, pushByte, hs]

theorem execPush_of_opc (hs : s.st = .opc) : exec (.push b) s = .next (pushOpc b s) := by
  rw [exec_of_pushedByte s rfl, pushByte_of_opc b hs]

theorem execPush_of_len (hs : s.st = .len) : exec (.push b) s = .next (pushLen b s) := by
  rw [exec_of_pushedByte s rfl, pushByte, hs]

theorem execPush_of_pay (hs : s.st = .pay) (hcnt : s.cnt.toNat < s.cfg.lenMax) :
    exec (.push b) s = .next (pushPayRegs b { s with pbuf := Memory.write s.pbuf s.cnt.toNat b }) := by
  rw [exec_of_pushedByte s rfl, pushByte_of_pay hs]
  exact pushPay_next.2 ⟨hcnt, rfl⟩

theorem execPush_of_trl (hs : s.st = .trl) : exec (.push b) s = .next (pushTrl b s) := by
  rw [exec_of_pushedByte s rfl, pushByte, hs]

theorem execPush_of_hold (hs : s.st = .hold) : exec (.push b) s = .next (raise .overrun s) := by
  rw [exec_of_pushedByte s rfl, pushByte, hs]

end Push

/-! The byte that completes the trailer gives one of three verdicts, in the order of R109. -/

section Verdict
variable {s : State} {b : Byte}

theorem pushTrl_mismatch (h : ¬s.cnt.toNat + 1 < trlW s.cfg) (hsum : trlShifted s b ≠ algFin s.cfg.alg s.acc) :
    pushTrl b s = raise .integrityMismatch { s with trl := trlShifted s b, cnt := 0 } := by
  have hv : verdict { s with trl := trlShifted s b } = .integrityMismatch := if_pos hsum
  rw [pushTrl_last h, hv]

theorem pushTrl_unknown (h : ¬s.cnt.toNat + 1 < trlW s.cfg) (hsum : trlShifted s b = algFin s.cfg.alg s.acc)
    (hk : lookup s.cfg.cat s.opc = none) :
    pushTrl b s = raise .unknownCmd { s with trl := trlShifted s b, cnt := 0 } := by
  have hv : verdict { s with trl := trlShifted s b } = .unknownCmd := by simp [verdict, hsum, hk]
  rw [pushTrl_last h, hv]

theorem pushTrl_known (h : ¬s.cnt.toNat + 1 < trlW s.cfg) (hsum : trlShifted s b = algFin s.cfg.alg s.acc)
    (hk : (lookup s.cfg.cat s.opc).isSome = true) :
    pushTrl b s = raise .frameOk { s with trl := trlShifted s b, cnt := 0 } := by
  obtain ⟨k, hk⟩ := Option.isSome_iff_exists.1 hk
  have hv : verdict { s with trl := trlShifted s b } = .frameOk := by simp [verdict, hsum, hk]
  rw [pushTrl_last h, hv]

end Verdict

/-- Settles O4. -/
theorem pushHuntingTakesOnlyTheMarker : Obligations.PushHuntingTakesOnlyTheMarker := by
  refine fun s b hs => ⟨fun hb => ?_, fun hb => ?_⟩
  · rw [execPush_of_hunt b hs, pushHunt_other hb]
    rfl
  · rw [execPush_of_hunt b hs, pushHunt_marker hb, startAcc, ← hb]
    rfl

/-- Settles O5. -/
theorem pushTakesTheOpcodeByte : Obligations.PushTakesTheOpcodeByte :=
  fun _ b hs => execPush_of_opc b hs

/-- Settles O6: the four clauses are the four rows of PUSH in `LEN`. -/
theorem pushTakesALengthByte : Obligations.PushTakesALengthByte := by
  rintro s b _ hs rfl
  rw [execPush_of_len b hs]
  refine ⟨fun hmore => ?_, fun hlast hmax => ?_, fun hlast hmax hzero => ?_, fun hlast hmax hzero => ?_⟩
  · rw [pushLen_more hmore]
    rfl
  · rw [pushLen_tooLong (Nat.not_lt.2 hlast) hmax]
    rfl
  · rw [pushLen_empty (Nat.not_lt.2 hlast) (Nat.not_lt.2 hmax) hzero]
    rfl
  · rw [pushLen_payload (Nat.not_lt.2 hlast) (Nat.not_lt.2 hmax) hzero]
    rfl

/-- Settles O7: the buffer after the byte is the buffer written at `cnt`. -/
theorem pushStoresAPayloadByte : Obligations.PushStoresAPayloadByte := by
  intro s b hs hcnt hmax
  refine ⟨Memory.write s.pbuf s.cnt.toNat b, Memory.read_write_same _ _ _,
    fun a ha => Memory.read_write_other _ b ha, ?_⟩
  rw [execPush_of_pay b hs (hcnt.trans_le hmax)]
  refine ⟨fun hlast => ?_, fun hmore => ?_⟩
  · rw [pushPayRegs_last (by exact hlast)]
    rfl
  · rw [pushPayRegs_more (by exact hmore)]
    rfl

/-- Settles O8: the two rows of PUSH in `TRL`, the second with each of the three verdicts. -/
theorem pushTakesATrailerByte : Obligations.PushTakesATrailerByte := by
  rintro s b _ hs rfl
  rw [execPush_of_trl b hs]
  refine ⟨fun hmore => ?_, fun hlast hsum => ?_, fun hlast hsum hk => ?_, fun hlast hsum hk => ?_⟩
  · rw [pushTrl_more hmore]
    rfl
  · rw [pushTrl_mismatch (Nat.not_lt.2 hlast) hsum]
    rfl
  · rw [pushTrl_unknown (Nat.not_lt.2 hlast) hsum hk]
    rfl
  · rw [pushTrl_known (Nat.not_lt.2 hlast) hsum hk]
    rfl

/-- Settles O9. -/
theorem pushWhileHeldIsOverrun : Obligations.PushWhileHeldIsOverrun :=
  fun _ b hs => execPush_of_hold b hs

/-! ### The transition table -/

theorem pushLen_len (b : Byte) (s : State) : (pushLen b s).len = lenShifted s b := by
  unfold pushLen
  dsimp only
  split_ifs <;> simp

theorem pushTrl_trl (b : Byte) (s : State) : (pushTrl b s).trl = trlShifted s b := by
  unfold pushTrl
  dsimp only
  split_ifs <;> simp

/-- A pushed byte in `PAY` that goes on is stored within the buffer. -/
theorem execPush_pay {b : Byte} {s t : State} (h : exec (.push b) s = .next t) (hs : s.st = .pay) :
    t = pushPayRegs b { s with pbuf := Memory.write s.pbuf s.cnt.toNat b } := by
  rw [exec_of_pushedByte s rfl, pushByte_of_pay hs] at h
  exact (pushPay_next.1 h).2

/-- No operation but a pushed byte, FLUSH and RST moves the sequencer (R100). -/
theorem exec_position {i : Instr} {s t : State} (h : exec i s = .next t) (hp : isPush i = false) (hf : i ≠ .flush)
    (hr : i ≠ .rst) : t.st = s.st ∧ t.cnt = s.cnt := by
  cases exec_next.1 h with
  | push hb => rw [isPush_of_pushedByte hb] at hp; cases hp
  | xdec h => rw [execXdec_eq h]; exact ⟨rfl, rfl⟩
  | rst => exact absurd rfl hr
  | flush => exact absurd rfl hf
  | nop | ginit | gbyte | reserved => exact ⟨rfl, rfl⟩

/-- Settles O29: each row of the table is a row of PUSH above; `exec_position` is the last clause. -/
theorem sequencerMovesByTheTable : Obligations.SequencerMovesByTheTable := by
  refine fun i s t h => ⟨?_, ?_, exec_position h⟩
  · rintro b rfl
    have next : ∀ {u}, exec (.push b) s = .next u → t = u := fun hu => by simpa [h] using hu
    refine ⟨fun hs hb => ?_, fun hs hb => ?_, fun hs => ?_, fun hs hmore => ?_, fun hs hlast hmax => ?_,
      fun hs hlast hzero => ?_, fun hs hlast hpos hmax => ?_, fun hs hmore => ?_, fun hs hlast => ?_,
      fun hs hmore => ?_, fun hs hlast hsum => ?_, fun hs hlast hsum hk => ?_, fun hs hlast hsum hk => ?_,
      fun hs => ?_⟩
    · rw [next (execPush_of_hunt b hs), pushHunt_other hb]
      exact ⟨hs, rfl⟩
    · rw [next (execPush_of_hunt b hs), pushHunt_marker hb]
      exact ⟨rfl, rfl⟩
    · rw [next (execPush_of_opc b hs)]
      exact ⟨rfl, rfl⟩
    · rw [next (execPush_of_len b hs), pushLen_more hmore]
      exact ⟨hs, rfl⟩
    · obtain rfl := next (execPush_of_len b hs)
      rw [pushLen_len] at hmax
      rw [pushLen_tooLong (Nat.not_lt.2 hlast) hmax]
      exact ⟨rfl, rfl⟩
    · obtain rfl := next (execPush_of_len b hs)
      rw [pushLen_len] at hzero
      rw [pushLen_empty (Nat.not_lt.2 hlast) (by omega) (BitVec.eq_of_toNat_eq hzero)]
      exact ⟨rfl, rfl⟩
    · obtain rfl := next (execPush_of_len b hs)
      rw [pushLen_len] at hpos hmax
      have hne : lenShifted s b ≠ 0 := fun h => by simp [h] at hpos
      rw [pushLen_payload (Nat.not_lt.2 hlast) (Nat.not_lt.2 hmax) hne]
      exact ⟨rfl, rfl⟩
    · rw [execPush_pay h hs, pushPayRegs_more (by exact hmore.ne)]
      exact ⟨hs, rfl⟩
    · rw [execPush_pay h hs, pushPayRegs_last (by exact hlast)]
      exact ⟨rfl, rfl⟩
    · rw [next (execPush_of_trl b hs), pushTrl_more hmore]
      exact ⟨hs, rfl⟩
    · obtain rfl := next (execPush_of_trl b hs)
      rw [pushTrl_trl] at hsum
      rw [pushTrl_mismatch (Nat.not_lt.2 hlast) hsum]
      exact ⟨rfl, rfl⟩
    · obtain rfl := next (execPush_of_trl b hs)
      rw [pushTrl_trl] at hsum
      rw [pushTrl_unknown (Nat.not_lt.2 hlast) hsum hk]
      exact ⟨rfl, rfl⟩
    · obtain rfl := next (execPush_of_trl b hs)
      rw [pushTrl_trl] at hsum
      rw [pushTrl_known (Nat.not_lt.2 hlast) hsum hk]
      exact ⟨rfl, rfl⟩
    · rw [next (execPush_of_hold b hs)]
      exact ⟨hs, rfl⟩
  · rintro (rfl | rfl) <;> cases h <;> exact ⟨rfl, rfl, rfl⟩

/-! ### The shifter -/

/-- Settles O37, by induction on the string from its end: the last byte is shifted in at the count of those before. -/
theorem shifterAssemblesBytes : Obligations.ShifterAssemblesBytes := by
  intro bo n s
  induction s using List.reverseRecOn with
  | nil => intro _; simp
  | append_singleton s b ih =>
    intro h
    rw [List.length_append, List.length_singleton] at h
    rw [List.zipIdx_append, List.foldl_append]
    simpa using shiftIn_asm bo n s b _ h (ih (by omega))

end Sys2Proof.Machine
end

section
/-! A frame pushed byte by byte (spec 40_delimiter.md R115 to R118): what the sequencer holds after each part of a
frame, by what has been taken, and the verdict at its last byte. -/

namespace Sys2Proof.Machine

open Sys2Proof

/-! ### Bytes that raise nothing -/

/-- The bytes are pushed one by one, and each of them returns `EV_NONE`. -/
def Quiet (bs : List Byte) (s t : State) : Prop :=
  RunsTo (pushs bs) s t (List.replicate bs.length ⟨.none, none⟩)

section Quiet
variable {s t u : State} {b : Byte} {xs ys : List Byte}

@[simp] theorem quiet_nil : Quiet [] s t ↔ t = s := by simp [Quiet, pushs]

theorem quiet_cons :
    Quiet (b :: xs) s t ↔ ∃ u, exec (.push b) s = .next u ∧ u.out = ⟨.none, none⟩ ∧ Quiet xs u t := by
  unfold Quiet
  rw [pushs, List.map_cons, runsTo_cons, List.length_cons, List.replicate_succ]
  constructor
  · rintro ⟨u, rs, hx, hr, hrs⟩
    obtain ⟨hout, rfl⟩ := List.cons.inj hrs
    exact ⟨u, hx, hout.symm, hr⟩
  · rintro ⟨u, hx, hout, hr⟩
    exact ⟨u, _, hx, hr, by rw [hout]⟩

theorem quiet_singleton : Quiet [b] s t ↔ exec (.push b) s = .next t ∧ t.out = ⟨.none, none⟩ := by
  rw [quiet_cons]
  constructor
  · rintro ⟨u, hx, hout, hq⟩
    obtain rfl := quiet_nil.1 hq
    exact ⟨hx, hout⟩
  · rintro ⟨hx, hout⟩
    exact ⟨t, hx, hout, quiet_nil.2 rfl⟩

/-- Quiet bytes contribute their `EV_NONE`s to a run and nothing else. -/
theorem Quiet.runsTo_append (h : Quiet xs s u) (ys : List Byte) (t : State) (rs : List Result) :
    RunsTo (pushs (xs ++ ys)) s t (List.replicate xs.length ⟨.none, none⟩ ++ rs) ↔ RunsTo (pushs ys) u t rs := by
  induction xs generalizing s with
  | nil =>
    obtain rfl := quiet_nil.1 h
    rfl
  | cons b xs ih =>
    obtain ⟨v, hx, hout, hq⟩ := quiet_cons.1 h
    rw [← ih hq, pushs, List.cons_append, List.map_cons, runsTo_cons, List.length_cons, List.replicate_succ,
      List.cons_append]
    constructor
    · rintro ⟨v', rs', hx', hr, hrs⟩
      obtain ⟨-, rfl⟩ := List.cons.inj hrs
      obtain rfl : v = v' := by simpa [hx] using hx'
      exact hr
    · intro hr
      exact ⟨v, _, hx, hr, by rw [hout]⟩

theorem Quiet.append (h : Quiet xs s u) (h' : Quiet ys u t) : Quiet (xs ++ ys) s t := by
  unfold Quiet
  rw [List.length_append, List.replicate_add]
  exact (h.runsTo_append ys t _).2 h'

/-- If each of the first `n` bytes is quiet and takes the sequencer from what holds of the bytes taken to what holds
of one more, then up to `n` bytes are quiet. -/
theorem quiet_of_steps {P : List Byte → State → Prop} {n : Nat}
    (step : ∀ xs b s, xs.length < n → P xs s → ∃ t, Quiet [b] s t ∧ P (xs ++ [b]) t)
    (hlen : xs.length + ys.length ≤ n) (hP : P xs s) : ∃ t, Quiet ys s t ∧ P (xs ++ ys) t := by
  induction ys generalizing xs s with
  | nil => exact ⟨s, quiet_nil.2 rfl, by rwa [List.append_nil]⟩
  | cons b ys ih =>
    rw [List.length_cons] at hlen
    obtain ⟨u, hb, hu⟩ := step xs b s (by omega) hP
    obtain ⟨t, hys, ht⟩ := ih (xs := xs ++ [b]) (by simp; omega) hu
    exact ⟨t, hb.append hys, by simpa using ht⟩

end Quiet

/-! ### What the sequencer holds, by what has been taken of a frame -/

/-- The start marker has been taken. -/
structure AtOpc (c : Cfg) (s : State) : Prop where
  cfg : s.cfg = c
  st : s.st = .opc
  acc : s.acc = startAcc c

/-- The opcode `o` and the bytes `lb` of the length field have been taken, and more of that field is to come. -/
structure AtLen (c : Cfg) (o : Byte) (lb : List Byte) (s : State) : Prop where
  cfg : s.cfg = c
  opc : s.opc = o
  st : s.st = .len
  cnt : s.cnt.toNat = lb.length
  len : s.len.toNat = asm c.bo lb
  acc : s.acc = coveredAcc c o lb []

/-- What the registers and the buffer keep of the frame once its length field is `lb`: the payload so far is `p`. -/
structure HasPayload (c : Cfg) (o : Byte) (lb p : List Byte) (s : State) : Prop where
  cfg : s.cfg = c
  opc : s.opc = o
  len : s.len.toNat = asm c.bo lb
  acc : s.acc = coveredAcc c o lb p
  buffer : Memory.readSpan s.pbuf 0 p.length = .ok p

/-- Payload is being taken. -/
structure AtPay (c : Cfg) (o : Byte) (lb p : List Byte) (s : State) : Prop extends HasPayload c o lb p s where
  st : s.st = .pay
  cnt : s.cnt.toNat = p.length

/-- The bytes `tr` of the trailer have been taken, and more of it is to come. -/
structure AtTrl (c : Cfg) (o : Byte) (lb p tr : List Byte) (s : State) : Prop extends HasPayload c o lb p s where
  st : s.st = .trl
  cnt : s.cnt.toNat = tr.length
  trl : s.trl.toNat = asm c.bo tr

/-- The payload so far is `p`: there is more to come, or the trailer begins. -/
def AtBody (c : Cfg) (o : Byte) (lb p : List Byte) (s : State) : Prop :=
  p.length < asm c.bo lb ∧ AtPay c o lb p s ∨ p.length = asm c.bo lb ∧ AtTrl c o lb p [] s

/-- The frame has ended with the event `e`. -/
structure AtEnd (c : Cfg) (o : Byte) (lb p : List Byte) (e : Event) (s : State) : Prop
    extends HasPayload c o lb p s where
  out : s.out = ⟨e, none⟩
  st : s.st = if e = .frameOk then .hold else .hunt

/-- The event of a frame of the given parts, read off the byte string (R109, R233). -/
def frameEvent (c : Cfg) (o : Byte) (lb p tr : List Byte) : Event :=
  if asm c.bo tr ≠ (checksum c.alg (covered c o lb p)).toNat then .integrityMismatch
  else if (lookup c.cat o).isSome then .frameOk
  else .unknownCmd

section Event
variable {c : Cfg} {o : Byte} {lb p tr : List Byte}

theorem frameEvent_mismatch (h : asm c.bo tr ≠ (checksum c.alg (covered c o lb p)).toNat) :
    frameEvent c o lb p tr = .integrityMismatch := if_pos h

theorem frameEvent_known (h : asm c.bo tr = (checksum c.alg (covered c o lb p)).toNat)
    (hk : (lookup c.cat o).isSome = true) : frameEvent c o lb p tr = .frameOk :=
  (if_neg (not_not.2 h)).trans (if_pos hk)

theorem frameEvent_unknown (h : asm c.bo tr = (checksum c.alg (covered c o lb p)).toNat)
    (hk : lookup c.cat o = none) : frameEvent c o lb p tr = .unknownCmd :=
  (if_neg (not_not.2 h)).trans (if_neg (by simp [hk]))

end Event

section Bytes
variable {c : Cfg} {o b : Byte} {lb p tr : List Byte} {s : State}

/-! ### The header -/

theorem push_marker (hs : s.st = .hunt) : ∃ t, Quiet [s.cfg.sof] s t ∧ AtOpc s.cfg t :=
  ⟨_, quiet_singleton.2 ⟨execPush_of_hunt _ hs, by rw [pushHunt_marker rfl]; rfl⟩, by
    rw [pushHunt_marker rfl]
    exact ⟨rfl, rfl, rfl⟩⟩

theorem AtOpc.push (h : AtOpc c s) (o : Byte) : ∃ t, Quiet [o] s t ∧ AtLen c o [] t := by
  obtain ⟨rfl, hst, hacc⟩ := h
  have hacc' : absorbed s o = coveredAcc s.cfg o [] [] := by rw [absorbed, hacc, algAbsorb_startAcc]
  exact ⟨_, quiet_singleton.2 ⟨execPush_of_opc o hst, rfl⟩, rfl, rfl, rfl, rfl, (asm_nil _).symm, hacc'⟩

theorem push_header (hs : s.st = .hunt) (o : Byte) : ∃ t, Quiet [s.cfg.sof, o] s t ∧ AtLen s.cfg o [] t := by
  obtain ⟨u, hsof, hu⟩ := push_marker hs
  obtain ⟨t, ho, ht⟩ := hu.push o
  exact ⟨t, hsof.append ho, ht⟩

/-! ### The length field -/

theorem AtLen.lenShifted_toNat (h : AtLen c o lb s) (hlb : lb.length < 2) (b : Byte) :
    (lenShifted s b).toNat = asm c.bo (lb ++ [b]) := by
  rw [lenShifted, h.cfg, h.cnt]
  exact shiftIn_asm c.bo 16 lb b s.len (by omega) h.len

theorem AtLen.absorbed_eq (h : AtLen c o lb s) (b : Byte) : absorbed s b = coveredAcc c o (lb ++ [b]) [] := by
  rw [absorbed, h.cfg, h.acc, algAbsorb_coveredAcc_length]

theorem AtLen.push_more (h : AtLen c o lb s) (hw : c.lenW ≤ 2) (hmore : lb.length + 1 < c.lenW) :
    ∃ t, Quiet [b] s t ∧ AtLen c o (lb ++ [b]) t := by
  have hlen := h.lenShifted_toNat (by omega) b
  have hacc := h.absorbed_eq b
  obtain ⟨rfl, hopc, hst, hcnt, -, -⟩ := h
  have hnext : (s.cnt + 1).toNat = (lb ++ [b]).length := by
    rw [toNat_add_one (by omega), hcnt, List.length_append, List.length_singleton]
  have hrow := execPush_of_len b hst
  rw [pushLen_more (by omega)] at hrow
  exact ⟨_, quiet_singleton.2 ⟨hrow, rfl⟩, rfl, hopc, hst, hnext, hlen, hacc⟩

theorem AtLen.push_tooLong (h : AtLen c o lb s) (hw : c.lenW ≤ 2) (hlast : lb.length + 1 = c.lenW)
    (hmax : c.lenMax < asm c.bo (lb ++ [b])) :
    ∃ t, exec (.push b) s = .next t ∧ t.out = ⟨.malformed, none⟩ := by
  have hlen := h.lenShifted_toNat (by omega) b
  obtain ⟨rfl, -, hst, hcnt, -, -⟩ := h
  have hrow := execPush_of_len b hst
  rw [pushLen_tooLong (by omega) (by omega)] at hrow
  exact ⟨_, hrow, rfl⟩

theorem AtLen.push_last (h : AtLen c o lb s) (hw : c.lenW ≤ 2) (hlast : lb.length + 1 = c.lenW)
    (hmax : asm c.bo (lb ++ [b]) ≤ c.lenMax) : ∃ t, Quiet [b] s t ∧ AtBody c o (lb ++ [b]) [] t := by
  have hlen := h.lenShifted_toNat (by omega) b
  have hacc := h.absorbed_eq b
  obtain ⟨rfl, hopc, hst, hcnt, -, -⟩ := h
  have hrow := execPush_of_len b hst
  by_cases hzero : lenShifted s b = 0
  · have hempty : 0 = asm s.cfg.bo (lb ++ [b]) := by rw [← hlen, hzero]; rfl
    rw [pushLen_empty (by omega) (by omega) hzero] at hrow
    exact ⟨_, quiet_singleton.2 ⟨hrow, rfl⟩, .inr ⟨hempty, ⟨rfl, hopc, hlen, hacc, rfl⟩, rfl, rfl, by simp⟩⟩
  · have hpos : 0 < asm s.cfg.bo (lb ++ [b]) := by
      rw [← hlen, Nat.pos_iff_ne_zero]
      exact fun h => hzero (BitVec.eq_of_toNat_eq h)
    rw [pushLen_payload (by omega) (by omega) hzero] at hrow
    exact ⟨_, quiet_singleton.2 ⟨hrow, rfl⟩, .inl ⟨hpos, ⟨rfl, hopc, hlen, hacc, rfl⟩, rfl, rfl⟩⟩

/-- A length field that is not complete raises nothing. -/
theorem AtLen.quiet_of_lt (h : AtLen c o [] s) (hw : c.lenW ≤ 2) (hlt : lb.length < c.lenW) :
    ∃ t, Quiet lb s t ∧ AtLen c o lb t :=
  quiet_of_steps (n := c.lenW - 1) (P := AtLen c o) (fun _ _ _ hn hu => hu.push_more hw (by omega))
    (by simp; omega) h

/-- A complete length field, if the length is legal. -/
theorem AtLen.quiet_field (h : AtLen c o [] s) (hw : c.lenW ≤ 2) (hlb : lb.length = c.lenW) (hpos : 0 < c.lenW)
    (hmax : asm c.bo lb ≤ c.lenMax) : ∃ t, Quiet lb s t ∧ AtBody c o lb [] t := by
  obtain rfl | ⟨init, b, rfl⟩ := List.eq_nil_or_concat' lb
  · rw [← hlb] at hpos; cases hpos
  rw [List.length_append, List.length_singleton] at hlb
  obtain ⟨u, hinit, hu⟩ := h.quiet_of_lt (lb := init) hw (by omega)
  obtain ⟨t, hb, ht⟩ := hu.push_last hw hlb hmax
  exact ⟨t, hinit.append hb, ht⟩

/-! ### The payload -/

theorem AtPay.push (h : AtPay c o lb p s) (hmax : asm c.bo lb ≤ c.lenMax) (hlt : p.length < asm c.bo lb) :
    ∃ t, Quiet [b] s t ∧ AtBody c o lb (p ++ [b]) t := by
  obtain ⟨⟨rfl, hopc, hlen, hacc, hbuf⟩, hst, hcnt⟩ := h
  have hacc' : absorbed s b = coveredAcc s.cfg o lb (p ++ [b]) := by
    rw [absorbed, hacc, algAbsorb_coveredAcc_payload]
  have hbuf' := readSpan_write_next hbuf b
  have hlen' : (p ++ [b]).length = p.length + 1 := List.length_append
  rw [← hlen', ← hcnt] at hbuf'
  have hrow := execPush_of_pay b hst (by omega)
  have hbound := s.len.isLt
  by_cases hlast : s.cnt.toNat + 1 = s.len.toNat
  · rw [pushPayRegs_last (by exact hlast)] at hrow
    exact ⟨_, quiet_singleton.2 ⟨hrow, rfl⟩,
      .inr ⟨by omega, ⟨rfl, hopc, hlen, hacc', hbuf'⟩, rfl, rfl, (asm_nil _).symm⟩⟩
  · have hnext : (s.cnt + 1).toNat = (p ++ [b]).length := by rw [toNat_add_one (by omega), hcnt, hlen']
    rw [pushPayRegs_more (by exact hlast)] at hrow
    exact ⟨_, quiet_singleton.2 ⟨hrow, rfl⟩, .inl ⟨by omega, ⟨rfl, hopc, hlen, hacc', hbuf'⟩, hst, hnext⟩⟩

theorem AtBody.push (h : AtBody c o lb p s) (hmax : asm c.bo lb ≤ c.lenMax) (hlt : p.length < asm c.bo lb) :
    ∃ t, Quiet [b] s t ∧ AtBody c o lb (p ++ [b]) t := by
  obtain ⟨-, h⟩ | ⟨heq, -⟩ := h
  · exact h.push hmax hlt
  · exact absurd heq hlt.ne

/-- Payload bytes up to the declared length raise nothing. -/
theorem AtBody.quiet_payload (h : AtBody c o lb [] s) (hmax : asm c.bo lb ≤ c.lenMax)
    (hle : p.length ≤ asm c.bo lb) : ∃ t, Quiet p s t ∧ AtBody c o lb p t :=
  quiet_of_steps (P := AtBody c o lb) (fun _ _ _ hn hu => hu.push hmax hn) (by simpa using hle) h

/-- The whole payload leads to the trailer. -/
theorem AtBody.atTrl (h : AtBody c o lb p s) (heq : p.length = asm c.bo lb) : AtTrl c o lb p [] s := by
  obtain ⟨hlt, -⟩ | ⟨-, h⟩ := h
  · exact absurd heq hlt.ne
  · exact h

/-! ### The trailer -/

theorem AtTrl.trlShifted_toNat (h : AtTrl c o lb p tr s) (halg : algWf c.alg = true) (hlt : tr.length < trlW c)
    (b : Byte) : (trlShifted s b).toNat = asm c.bo (tr ++ [b]) := by
  have hW := eight_mul_trlW halg
  have hreg : (s.trl.setWidth (algW c.alg)).toNat = asm c.bo tr := by
    rw [BitVec.toNat_setWidth, h.trl]
    exact Nat.mod_eq_of_lt ((asm_lt c.bo tr).trans_le (Nat.pow_le_pow_right two_pos (by omega)))
  have hshift := shiftIn_asm c.bo (algW c.alg) tr b _ (by omega) hreg
  rw [trlShifted, h.cfg, h.cnt, BitVec.toNat_setWidth, hshift]
  refine Nat.mod_eq_of_lt (hshift ▸ (BitVec.isLt _).trans_le ?_)
  exact Nat.pow_le_pow_right two_pos (algW_le halg)

theorem AtTrl.push_more (h : AtTrl c o lb p tr s) (halg : algWf c.alg = true) (hmore : tr.length + 1 < trlW c) :
    ∃ t, Quiet [b] s t ∧ AtTrl c o lb p (tr ++ [b]) t := by
  have htrl := h.trlShifted_toNat halg (by omega) b
  have hW := (trlW_bounds halg).2
  obtain ⟨⟨rfl, hopc, hlen, hacc, hbuf⟩, hst, hcnt, -⟩ := h
  have hnext : (s.cnt + 1).toNat = (tr ++ [b]).length := by
    rw [toNat_add_one (by omega), hcnt, List.length_append, List.length_singleton]
  have hrow := execPush_of_trl b hst
  rw [pushTrl_more (by omega)] at hrow
  exact ⟨_, quiet_singleton.2 ⟨hrow, rfl⟩, ⟨rfl, hopc, hlen, hacc, hbuf⟩, hst, hnext, htrl⟩

/-- A trailer that is not complete raises nothing. -/
theorem AtTrl.quiet_of_lt (h : AtTrl c o lb p [] s) (halg : algWf c.alg = true) (hlt : tr.length < trlW c) :
    ∃ t, Quiet tr s t ∧ AtTrl c o lb p tr t :=
  quiet_of_steps (n := trlW c - 1) (P := AtTrl c o lb p) (fun _ _ _ hn hu => hu.push_more halg (by omega))
    (by simp; omega) h

/-- The byte that completes the trailer gives the event of the frame. -/
theorem AtTrl.push_last (h : AtTrl c o lb p tr s) (halg : algWf c.alg = true) (hlast : tr.length + 1 = trlW c) :
    ∃ t, exec (.push b) s = .next t ∧ AtEnd c o lb p (frameEvent c o lb p (tr ++ [b])) t := by
  have htrl := h.trlShifted_toNat halg (by omega) b
  obtain ⟨⟨rfl, rfl, hlen, hacc, hbuf⟩, hst, hcnt, -⟩ := h
  have hrow := execPush_of_trl b hst
  have hfull : ¬s.cnt.toNat + 1 < trlW s.cfg := by omega
  have hsum : trlShifted s b = algFin s.cfg.alg s.acc ↔
      asm s.cfg.bo (tr ++ [b]) = (checksum s.cfg.alg (covered s.cfg s.opc lb p)).toNat := by
    rw [← BitVec.toNat_inj, htrl, hacc]
    rfl
  by_cases hok : trlShifted s b = algFin s.cfg.alg s.acc
  · cases hk : lookup s.cfg.cat s.opc with
    | none =>
      rw [pushTrl_unknown hfull hok hk] at hrow
      rw [frameEvent_unknown (hsum.1 hok) hk]
      exact ⟨_, hrow, ⟨rfl, rfl, hlen, hacc, hbuf⟩, rfl, rfl⟩
    | some k =>
      have hk : (lookup s.cfg.cat s.opc).isSome = true := by rw [hk]; rfl
      rw [pushTrl_known hfull hok hk] at hrow
      rw [frameEvent_known (hsum.1 hok) hk]
      exact ⟨_, hrow, ⟨rfl, rfl, hlen, hacc, hbuf⟩, rfl, rfl⟩
  · rw [pushTrl_mismatch hfull hok] at hrow
    rw [frameEvent_mismatch (mt hsum.2 hok)]
    exact ⟨_, hrow, ⟨rfl, rfl, hlen, hacc, hbuf⟩, rfl, rfl⟩

end Bytes

/-! ### A whole frame -/

section Frame
variable {s : State} {lb p tr : List Byte}

/-- A string laid out as a frame with a legal length, pushed while hunting: quiet but for its last byte, which gives
the event of the frame. -/
theorem runsTo_frameOf (hc : cfgWf s.cfg = true) (hs : s.st = .hunt) (o : Byte) (hlb : lb.length = s.cfg.lenW)
    (hlen : asm s.cfg.bo lb = p.length) (hmax : p.length ≤ s.cfg.lenMax) (htr : tr.length = trlW s.cfg) :
    ∃ t, RunsTo (pushs (frameOf s.cfg o lb p tr)) s t
        (List.replicate ((frameOf s.cfg o lb p tr).length - 1) ⟨.none, none⟩ ++
          [⟨frameEvent s.cfg o lb p tr, none⟩]) ∧
      AtEnd s.cfg o lb p (frameEvent s.cfg o lb p tr) t := by
  obtain ⟨hw, -, halg, -⟩ := (cfgWf_iff s.cfg).1 hc
  have hpos := (trlW_bounds halg).1
  obtain rfl | ⟨init, b, rfl⟩ := List.eq_nil_or_concat' tr
  · rw [← htr] at hpos; cases hpos
  rw [List.length_append, List.length_singleton] at htr
  obtain ⟨s1, q1, h1⟩ := push_header hs o
  obtain ⟨s2, q2, h2⟩ := h1.quiet_field (by omega) hlb (by omega) (by omega)
  obtain ⟨s3, q3, h3⟩ := h2.quiet_payload (p := p) (by omega) (by omega)
  obtain ⟨s4, q4, h4⟩ := (h3.atTrl hlen.symm).quiet_of_lt (tr := init) halg (by omega)
  obtain ⟨t, hx, ht⟩ := h4.push_last (b := b) halg htr
  have hquiet := ((q1.append q2).append q3).append q4
  have hsplit : frameOf s.cfg o lb p (init ++ [b]) = ([s.cfg.sof, o] ++ lb ++ p ++ init) ++ [b] := by simp [frameOf]
  refine ⟨t, ?_, ht⟩
  rw [hsplit, List.length_append, List.length_singleton, Nat.add_sub_cancel, hquiet.runsTo_append, pushs,
    List.map_singleton, runsTo_cons]
  exact ⟨t, [], hx, runsTo_nil.2 ⟨rfl, rfl⟩, by rw [ht.out]⟩

end Frame

/-- The payload output of a held frame (R34). -/
theorem AtEnd.payload_eq {c : Cfg} {o : Byte} {lb p : List Byte} {s : State} (h : AtEnd c o lb p .frameOk s)
    (hlen : asm c.bo lb = p.length) : s.payload = p.map some := by
  have hst : s.st = .hold := h.st
  have hlen' : s.len.toNat = p.length := h.len.trans hlen
  obtain ⟨-, hread⟩ := Memory.readSpan_ok.1 h.buffer
  refine List.ext_getElem? fun i => ?_
  by_cases hi : i < p.length
  · have hcell : Memory.read s.pbuf i = p[i]? := by simpa using hread i hi
    simp [State.payload, State.pay, hst, hlen', hi, hcell]
  · simp [State.payload, hlen', hi]

end Sys2Proof.Machine
end

section
/-! Byte strings pushed while hunting (spec 40_delimiter.md R115 to R118): valid frames, encoded frames, garbage
before a frame, and the whole-buffer decoder. -/

namespace Sys2Proof.Machine

open Sys2Proof

/-! ### Valid and encoded frames -/

/-- The frame predicate (R78), read as a layout: a valid frame has its parts. `frameWf_frameOf` is the converse. -/
theorem exists_frameOf_of_frameWf {c : Cfg} {f : List Byte} (h : frameWf c f = true) :
    ∃ o lb p tr, f = frameOf c o lb p tr ∧ lb.length = c.lenW ∧ asm c.bo lb = p.length ∧ p.length ≤ c.lenMax ∧
      tr.length = trlW c ∧ asm c.bo tr = (checksum c.alg (covered c o lb p)).toNat := by
  simp only [frameWf, Bool.and_eq_true, decide_eq_true_eq, beq_iff_eq] at h
  obtain ⟨⟨⟨⟨hmin, hsof⟩, hmax⟩, hsize⟩, hsum⟩ := h
  match f, hmin, hsof with
  | [_], hmin, _ => simp at hmin; omega
  | b :: o :: rest, hmin, hsof =>
    obtain rfl : b = c.sof := Option.some.inj hsof
    set lb := rest.take c.lenW
    set p := (rest.drop c.lenW).take (frameLen c (c.sof :: o :: rest))
    set tr := (rest.drop c.lenW).drop (frameLen c (c.sof :: o :: rest))
    have hf : c.sof :: o :: rest = frameOf c o lb p tr := by
      simp only [frameOf, List.append_assoc, lb, p, tr, List.take_append_drop]
    have hlb : lb.length = c.lenW := by simp [lb] at hmin ⊢; omega
    have hp : p.length = frameLen c (c.sof :: o :: rest) := by simp [p] at hsize ⊢; omega
    have htr : tr.length = trlW c := by simp [tr] at hsize ⊢; omega
    have hlen : asm c.bo lb = p.length := by rw [hp, hf, frameLen_frameOf hlb]
    rw [hf, drop_frameOf htr, frameCovered_frameOf htr] at hsum
    exact ⟨o, lb, p, tr, hf, hlb, hlen, hp ▸ hmax, htr, hsum⟩

/-- Settles O49: the parts of a valid frame pushed in order; its trailer is its checksum, so the catalog decides. -/
theorem validFrameGivesOneVerdict : Obligations.ValidFrameGivesOneVerdict := by
  intro s f hc hs hf
  obtain ⟨o, lb, p, tr, rfl, hlb, hlen, hmax, htr, hsum⟩ := exists_frameOf_of_frameWf hf
  obtain ⟨t, hrun, ht⟩ := runsTo_frameOf hc hs o hlb hlen hmax htr
  refine ⟨fun hk => ?_, fun hk => ?_⟩
  · rw [frameEvent_known hsum hk] at hrun ht
    have hst : t.st = .hold := ht.st
    refine ⟨t, hrun, hst, ?_, ?_, ?_⟩
    · rw [State.fOpc, if_pos hst, ht.opc]
      rfl
    · rw [State.fLen, if_pos hst, ht.len, frameLen_frameOf hlb]
    · rw [ht.payload_eq hlen, framePayload_frameOf hlb hlen]
  · rw [frameEvent_unknown hsum hk] at hrun ht
    exact ⟨t, hrun, ht.st⟩

/-- In a well-formed catalog an entry's opcode finds the entry (R174, R175). -/
theorem lookup_of_entry {fw nf k : Nat} {cat : Catalog} {e : CatEntry} (hcat : catWf fw nf cat = true)
    (hk : cat[k]? = some e) : lookup cat e.opcode = some k := by
  obtain ⟨-, hnodup, -⟩ := (catWf_iff fw nf cat).1 hcat
  cases hl : lookup cat e.opcode with
  | none =>
    have hne := List.findIdx?_eq_none_iff.1 hl e (List.mem_of_getElem? hk)
    simp at hne
  | some j =>
    obtain ⟨e', hj, hop⟩ := lookup_some hl
    have hlt : j < (cat.map CatEntry.opcode).length := by simpa using (List.getElem?_eq_some_iff.1 hj).1
    have hjk : j = k := (List.getElem?_inj hlt hnodup).1 (by simp [hj, hk, hop])
    rw [hjk]

theorem runsTo_cfg {is : List Instr} {s t : State} {rs : List Result} (h : RunsTo is s t rs) : t.cfg = s.cfg := by
  induction is generalizing s rs with
  | nil => rw [(runsTo_nil.1 h).1]
  | cons i is ih =>
    obtain ⟨u, rs', hx, hr, -⟩ := runsTo_cons.1 h
    rw [ih hr, exec_cfg hx]

/-- Settles O50: the encoded frame is valid (O48), so it is held (O49); the index is the entry's own. -/
theorem encodedFrameRoundTrip : Obligations.EncodedFrameRoundTrip := by
  intro s k e p hc hs hk hmax
  obtain ⟨-, -, -, -, hcat⟩ := (cfgWf_iff s.cfg).1 hc
  obtain ⟨hwf, hopc, hlen, hpay, -⟩ := encodedFramesAreValid s.cfg e.opcode p hc hmax
  have hlookup := lookup_of_entry hcat hk
  obtain ⟨hknown, -⟩ := validFrameGivesOneVerdict s _ hc hs hwf
  obtain ⟨t, hrun, hst, hfopc, hflen, hpayload⟩ := hknown (by rw [hopc, hlookup]; rfl)
  rw [hopc] at hfopc
  rw [hlen] at hflen
  rw [hpay] at hpayload
  refine ⟨t, _, hrun, hst, hfopc, ?_, hflen, hpayload⟩
  have htopc : t.opc = e.opcode := by simpa [State.fOpc, hst] using hfopc
  rw [State.fIdx, if_pos hst, htopc, runsTo_cfg hrun, hlookup]

/-! ### Garbage before a frame -/

theorem execPush_garbage {s : State} {b : Byte} (hs : s.st = .hunt) (hb : b ≠ s.cfg.sof) :
    exec (.push b) s = .next (raise .none s) := by
  rw [execPush_of_hunt b hs, pushHunt_other hb]

/-- While hunting, what a byte does is independent of the result before it. -/
theorem execPush_raise_none {s : State} (hs : s.st = .hunt) (b : Byte) :
    exec (.push b) (raise .none s) = exec (.push b) s := by
  rw [execPush_of_hunt b hs, execPush_of_hunt (s := raise .none s) b hs]
  by_cases hb : b = s.cfg.sof
  · rw [pushHunt_marker hb, pushHunt_marker (s := raise .none s) hb]
    rfl
  · rw [pushHunt_other hb, pushHunt_other (s := raise .none s) hb]
    rfl

/-- Settles O52, by induction on the garbage: each byte of it leaves the state, its result apart. -/
theorem leadingGarbageIsIgnored : Obligations.LeadingGarbageIsIgnored := by
  intro s g f hs hg hf t rs
  induction g generalizing s with
  | nil => rfl
  | cons b g ih =>
    obtain ⟨hb, hg⟩ := List.forall_mem_cons.1 hg
    have hquiet : Quiet [b] s (raise .none s) := quiet_singleton.2 ⟨execPush_garbage hs hb, rfl⟩
    obtain ⟨x, f, rfl⟩ := List.exists_cons_of_ne_nil hf
    calc RunsTo (pushs (x :: f)) s t rs
      _ ↔ RunsTo (pushs (x :: f)) (raise .none s) t rs := by
        rw [pushs, List.map_cons, runsTo_cons, runsTo_cons, execPush_raise_none hs]
      _ ↔ RunsTo (pushs (g ++ x :: f)) (raise .none s) t (List.replicate g.length ⟨.none, none⟩ ++ rs) :=
        ih (raise .none s) hs hg
      _ ↔ RunsTo (pushs ([b] ++ (g ++ x :: f))) s t
            (List.replicate 1 ⟨.none, none⟩ ++ (List.replicate g.length ⟨.none, none⟩ ++ rs)) :=
        (hquiet.runsTo_append _ _ _).symm

/-! ### The streaming decoder -/

section Stream
variable {s t u : State} {b : Byte} {bs xs : List Byte}

theorem decodeBuffer_cons_of_none (h : exec (.push b) s = .next t) (hev : t.out = ⟨.none, none⟩) :
    decodeBuffer (b :: bs) s = decodeBuffer bs t := by
  simp [decodeBuffer, h, hev]

theorem decodeBuffer_cons_of_malformed (h : exec (.push b) s = .next t) (hev : t.out = ⟨.malformed, none⟩) :
    decodeBuffer (b :: bs) s = some .malformed := by
  simp [decodeBuffer, h, hev]

theorem decodeBuffer_cons_of_mismatch (h : exec (.push b) s = .next t)
    (hev : t.out = ⟨.integrityMismatch, none⟩) : decodeBuffer (b :: bs) s = some .integrityMismatch := by
  simp [decodeBuffer, h, hev]

theorem decodeBuffer_cons_of_unknown (h : exec (.push b) s = .next t) (hev : t.out = ⟨.unknownCmd, none⟩) :
    decodeBuffer (b :: bs) s = some .unknownCommand := by
  simp [decodeBuffer, h, hev]

theorem decodeBuffer_cons_of_frameOk (h : exec (.push b) s = .next t) (hev : t.out = ⟨.frameOk, none⟩) :
    decodeBuffer (b :: bs) s = some (.frame t.opc t.len.toNat t.payload) := by
  simp [decodeBuffer, h, hev]

/-- The streaming decoder reads on through quiet bytes. -/
theorem Quiet.decodeBuffer_append (h : Quiet xs s u) (bs : List Byte) :
    decodeBuffer (xs ++ bs) s = decodeBuffer bs u := by
  induction xs generalizing s with
  | nil =>
    obtain rfl := quiet_nil.1 h
    rfl
  | cons b xs ih =>
    obtain ⟨v, hx, hout, hq⟩ := quiet_cons.1 h
    exact (decodeBuffer_cons_of_none hx hout).trans (ih hq)

/-- A string of quiet bytes holds no frame. -/
theorem Quiet.decodeBuffer_eq (h : Quiet xs s u) : decodeBuffer xs s = some .incomplete := by
  simpa [decodeBuffer] using h.decodeBuffer_append []

end Stream

/-! ### The whole-buffer decoder, by how far the buffer reaches -/

section Whole
variable {c : Cfg} {o : Byte} {lb p tr rest : List Byte} {s : State}

theorem decodeBody_of_short (h : rest.length < c.lenW) : decodeBody c o rest = .incomplete := if_pos h

theorem decodeBody_of_tooLong (hlb : lb.length = c.lenW) (hmax : c.lenMax < asm c.bo lb) :
    decodeBody c o (lb ++ rest) = .malformed := by
  simp [decodeBody, ← hlb, hmax]

theorem decodeBody_of_cut (hlb : lb.length = c.lenW) (hmax : asm c.bo lb ≤ c.lenMax)
    (hcut : rest.length < asm c.bo lb + trlW c) : decodeBody c o (lb ++ rest) = .incomplete := by
  simp [decodeBody, ← hlb, Nat.not_lt.2 hmax, hcut]

/-- The answer that goes with the event of a frame of the given parts. -/
def frameAnswer (c : Cfg) (o : Byte) (lb p tr : List Byte) : DecodeAnswer :=
  if asm c.bo tr ≠ (checksum c.alg (covered c o lb p)).toNat then .integrityMismatch
  else if (lookup c.cat o).isSome then .frame o p.length (p.map some)
  else .unknownCommand

theorem decodeBody_of_frame (hlb : lb.length = c.lenW) (hmax : asm c.bo lb ≤ c.lenMax)
    (hlen : asm c.bo lb = p.length) (htr : tr.length = trlW c) :
    decodeBody c o (lb ++ (p ++ (tr ++ rest))) = frameAnswer c o lb p tr := by
  have hfull : ¬(lb ++ (p ++ (tr ++ rest))).length < lb.length := by simp
  have hlong : ¬(p ++ (tr ++ rest)).length < p.length + tr.length := by simp
  rw [hlen] at hmax
  simp only [decodeBody, frameAnswer, ← hlb, ← htr, if_neg hfull, List.take_left, List.drop_left, hlen,
    if_neg (Nat.not_lt.2 hmax), if_neg hlong]
  cases lookup c.cat o <;> rfl

/-- A string of at least `n` bytes begins with `n` bytes. -/
theorem exists_append_of_le_length {n : Nat} {xs : List Byte} (h : n ≤ xs.length) :
    ∃ ys zs, xs = ys ++ zs ∧ ys.length = n :=
  ⟨xs.take n, xs.drop n, (List.take_append_drop n xs).symm, List.length_take_of_le h⟩

/-! ### The streaming decoder, part by part of a frame -/

/-- At the trailer: the answer is that of the frame, if the trailer is complete. -/
theorem AtTrl.decodeBuffer_eq (h : AtTrl c o lb p [] s) (halg : algWf c.alg = true) (hlen : asm c.bo lb = p.length)
    (htr : tr.length = trlW c) (rest : List Byte) :
    decodeBuffer (tr ++ rest) s = some (frameAnswer c o lb p tr) := by
  have hpos := (trlW_bounds halg).1
  obtain rfl | ⟨init, b, rfl⟩ := List.eq_nil_or_concat' tr
  · rw [← htr] at hpos; cases hpos
  rw [List.length_append, List.length_singleton] at htr
  obtain ⟨u, hinit, hu⟩ := h.quiet_of_lt (tr := init) halg (by omega)
  obtain ⟨t, hx, ht⟩ := hu.push_last (b := b) halg htr
  rw [List.append_assoc, hinit.decodeBuffer_append, List.singleton_append, frameAnswer]
  by_cases hsum : asm c.bo (init ++ [b]) = (checksum c.alg (covered c o lb p)).toNat
  · rw [if_neg (not_not.2 hsum)]
    by_cases hk : (lookup c.cat o).isSome = true
    · rw [frameEvent_known hsum hk] at ht
      rw [if_pos hk, decodeBuffer_cons_of_frameOk hx ht.out, ht.opc, ht.len, hlen, ht.payload_eq hlen]
    · rw [frameEvent_unknown hsum (by simpa using hk)] at ht
      rw [if_neg hk, decodeBuffer_cons_of_unknown hx ht.out]
  · rw [frameEvent_mismatch hsum] at ht
    rw [if_pos hsum, decodeBuffer_cons_of_mismatch hx ht.out]

/-- After the length field: the payload and the trailer are there, or the buffer is cut short. -/
theorem AtBody.decodeBuffer_eq (h : AtBody c o lb [] s) (halg : algWf c.alg = true) (hlb : lb.length = c.lenW)
    (hmax : asm c.bo lb ≤ c.lenMax) (rest : List Byte) :
    decodeBuffer rest s = some (decodeBody c o (lb ++ rest)) := by
  by_cases hp : rest.length < asm c.bo lb
  · obtain ⟨t, hq, -⟩ := h.quiet_payload hmax hp.le
    rw [hq.decodeBuffer_eq, decodeBody_of_cut hlb hmax (by omega)]
  obtain ⟨p, rest, rfl, hlen⟩ := exists_append_of_le_length (Nat.not_lt.1 hp)
  obtain ⟨u, hq, hu⟩ := h.quiet_payload hmax hlen.le
  have hu := hu.atTrl hlen
  by_cases hcut : rest.length < trlW c
  · obtain ⟨t, hq', -⟩ := hu.quiet_of_lt halg hcut
    rw [(hq.append hq').decodeBuffer_eq, decodeBody_of_cut hlb hmax (by simp; omega)]
  obtain ⟨tr, rest, rfl, htr⟩ := exists_append_of_le_length (Nat.not_lt.1 hcut)
  rw [hq.decodeBuffer_append, hu.decodeBuffer_eq halg hlen.symm htr, decodeBody_of_frame hlb hmax hlen.symm htr]

/-- A length above `LEN_MAX` is reported at the last byte of its field. -/
theorem AtLen.decodeBuffer_of_tooLong (h : AtLen c o [] s) (hw : c.lenW ≤ 2) (hpos : 0 < c.lenW)
    (hlb : lb.length = c.lenW) (hmax : c.lenMax < asm c.bo lb) (rest : List Byte) :
    decodeBuffer (lb ++ rest) s = some .malformed := by
  obtain rfl | ⟨init, b, rfl⟩ := List.eq_nil_or_concat' lb
  · rw [← hlb] at hpos; cases hpos
  rw [List.length_append, List.length_singleton] at hlb
  obtain ⟨u, hinit, hu⟩ := h.quiet_of_lt (lb := init) hw (by omega)
  obtain ⟨t, hx, hout⟩ := hu.push_tooLong hw hlb hmax
  rw [List.append_assoc, hinit.decodeBuffer_append, List.singleton_append, decodeBuffer_cons_of_malformed hx hout]

/-- After the opcode: the streaming decoder answers what `decodeBody` does of the bytes that follow. -/
theorem AtLen.decodeBuffer_eq (h : AtLen c o [] s) (hc : cfgWf c = true) (rest : List Byte) :
    decodeBuffer rest s = some (decodeBody c o rest) := by
  obtain ⟨hw, -, halg, -, -⟩ := (cfgWf_iff c).1 hc
  have hw2 : c.lenW ≤ 2 := by omega
  have hw1 : 0 < c.lenW := by omega
  by_cases hshort : rest.length < c.lenW
  · obtain ⟨t, hq, -⟩ := h.quiet_of_lt hw2 hshort
    rw [hq.decodeBuffer_eq, decodeBody_of_short hshort]
  obtain ⟨lb, rest, rfl, hlb⟩ := exists_append_of_le_length (Nat.not_lt.1 hshort)
  by_cases hmax : c.lenMax < asm c.bo lb
  · rw [h.decodeBuffer_of_tooLong hw2 hw1 hlb hmax, decodeBody_of_tooLong hlb hmax]
  · obtain ⟨t, hq, ht⟩ := h.quiet_field hw2 hlb hw1 (Nat.not_lt.1 hmax)
    rw [hq.decodeBuffer_append, ht.decodeBuffer_eq halg hlb (Nat.not_lt.1 hmax)]

end Whole

theorem decodeWhole_cons_of_ne {c : Cfg} {b : Byte} (hb : b ≠ c.sof) (buf : List Byte) :
    decodeWhole c (b :: buf) = decodeWhole c buf := by
  simp [decodeWhole, hb]

theorem decodeWhole_marker (c : Cfg) : decodeWhole c [c.sof] = .incomplete := by simp [decodeWhole]

theorem decodeWhole_header (c : Cfg) (o : Byte) (rest : List Byte) :
    decodeWhole c (c.sof :: o :: rest) = decodeBody c o rest := by
  simp [decodeWhole]

/-- Settles O53, by induction on the buffer up to its first start marker: both decoders drop a byte that is none, and
from the marker on `AtLen.decodeBuffer_eq` compares them. -/
theorem streamingDecodesTheBuffer : Obligations.StreamingDecodesTheBuffer := by
  intro s buf hc hs
  induction buf generalizing s with
  | nil => rfl
  | cons b buf ih =>
    by_cases hb : b = s.cfg.sof
    · subst hb
      cases buf with
      | nil =>
        obtain ⟨t, hq, -⟩ := push_marker hs
        rw [hq.decodeBuffer_eq, decodeWhole_marker]
      | cons o rest =>
        obtain ⟨t, hq, ht⟩ := push_header hs o
        rw [decodeWhole_header, ← ht.decodeBuffer_eq hc]
        exact hq.decodeBuffer_append rest
    · rw [decodeBuffer_cons_of_none (execPush_garbage hs hb) rfl, decodeWhole_cons_of_ne hb]
      exact ih (raise .none s) hc hs

end Sys2Proof.Machine
end

section
/-! The checksum algorithm (spec 41_integrity.md R140 to R144, R151, R152, R155): widths and check values, the table
form of a CRC, and that both families detect a changed byte, because each of their functions is injective. -/

namespace Sys2Proof.Machine

open Sys2Proof

/-! ### Widths and check values -/

/-- Settles O38: a lemma for each function of `ALG`. -/
theorem checksumsFitTheirWidth : Obligations.ChecksumsFitTheirWidth :=
  fun _ h => ⟨accFits_algInit h, accFits_algAbsorb h, fun _ => algFin_lt h⟩

/-- Settles O42: fixed data, evaluated one by one. -/
theorem checkValuesOfTheFamilies : Obligations.CheckValuesOfTheFamilies := by
  unfold Obligations.CheckValuesOfTheFamilies
  refine ⟨?_, ?_, ?_, ?_, ?_, ?_, ?_, ?_, ?_, ?_, ?_, ?_, ?_, ?_⟩ <;> decide +kernel

/-! ### The rounds of a CRC -/

section Rounds
variable {w : Nat} (hw : w ≤ 32) (poly : AlgWord)
include hw

/-- The rounds do not look at the bits from `W` up. -/
theorem crcStep_and_mask (hpos : 0 < w) (a : AlgWord) : crcStep w poly (a &&& mask w) = crcStep w poly a := by
  refine BitVec.eq_of_getLsbD_eq fun i _ => ?_
  have hprev : i < w → i - 1 < w := by omega
  simp only [getLsbD_crcStep _ _ _ hw, BitVec.getLsbD_and, getLsbD_mask _ _ hw]
  by_cases hi : i < w <;> simp [hi, hprev, hpos]

theorem crcRounds_and_mask (hpos : 0 < w) (a : AlgWord) : crcRounds w poly (a &&& mask w) = crcRounds w poly a :=
  congrArg (crcStep w poly)^[7] (crcStep_and_mask hw poly hpos a)

/-- A round is linear, and so are eight. -/
theorem crcStep_xor (a b : AlgWord) : crcStep w poly (a ^^^ b) = crcStep w poly a ^^^ crcStep w poly b := by
  refine BitVec.eq_of_getLsbD_eq fun i _ => ?_
  simp only [BitVec.getLsbD_xor, getLsbD_crcStep _ _ _ hw, Bool.and_xor_distrib_left, Bool.and_xor_distrib_right]
  simp only [Bool.xor_assoc, Bool.xor_left_comm]

theorem crcRounds_xor (a b : AlgWord) : crcRounds w poly (a ^^^ b) = crcRounds w poly a ^^^ crcRounds w poly b := by
  simp only [crcRounds, Function.iterate_succ_apply, Function.iterate_zero_apply, crcStep_xor hw]

/-- As long as the top bit stays 0 a round is a shift, whatever the polynomial. -/
theorem crcStep_of_top_zero {a : AlgWord} (ha : ∀ i, w - 1 ≤ i → a.getLsbD i = false) :
    crcStep w poly a = a <<< 1 := by
  refine BitVec.eq_of_getLsbD_eq fun i _ => ?_
  have hprev : ¬i < w → a.getLsbD (i - 1) = false := fun hi => ha _ (by omega)
  rw [getLsbD_crcStep _ _ _ hw, BitVec.getLsbD_shiftLeft, ha _ le_rfl]
  by_cases hi : i < w <;> simp [hi, hprev]

theorem iterate_crcStep_of_top_zero {n : Nat} {a : AlgWord} (ha : ∀ i, w - n ≤ i → a.getLsbD i = false) :
    (crcStep w poly)^[n] a = a <<< n := by
  induction n generalizing a with
  | zero => simp
  | succ n ih =>
    have hfirst := crcStep_of_top_zero hw poly fun i hi => ha i (by omega)
    rw [Function.iterate_succ_apply, hfirst, ih, ← BitVec.shiftLeft_add, Nat.add_comm]
    intro i hi
    simp [BitVec.getLsbD_shiftLeft, ha (i - 1) (by omega)]

/-- Eight rounds only shift the `W - 8` low bits of an accumulator. -/
theorem crcRounds_low (h8 : 8 ≤ w) (a : AlgWord) : crcRounds w poly (a &&& mask (w - 8)) = (a <<< 8) &&& mask w := by
  have hlow := getLsbD_mask (w - 8) (hw := by omega)
  rw [crcRounds, iterate_crcStep_of_top_zero hw poly fun i hi => by simp [hlow, hi]]
  refine BitVec.eq_of_getLsbD_eq fun i hi => ?_
  have hprev : ¬i < 8 → (i - 8 < w - 8 ↔ i < w) := by omega
  simp only [BitVec.getLsbD_and, BitVec.getLsbD_shiftLeft, getLsbD_mask _ _ hw, hlow]
  by_cases hi8 : i < 8 <;> simp [hi, hi8, hprev]

/-- An accumulator with a byte added at the top of its `W` bits: the low bits, and above them the index of R144. -/
theorem xor_byte_and_mask (h8 : 8 ≤ w) (a : AlgWord) (b : Byte) :
    (a ^^^ b.setWidth 32 <<< (w - 8)) &&& mask w =
      (a &&& mask (w - 8)) ^^^ ((a >>> (w - 8)).setWidth 8 ^^^ b).setWidth 32 <<< (w - 8) := by
  refine BitVec.eq_of_getLsbD_eq fun i hi => ?_
  simp only [BitVec.getLsbD_and, BitVec.getLsbD_xor, BitVec.getLsbD_shiftLeft, BitVec.getLsbD_setWidth,
    BitVec.getLsbD_ushiftRight, getLsbD_mask _ _ hw, getLsbD_mask (w - 8) _ (by omega)]
  by_cases hlow : i < w - 8
  · have hw : i < w := by omega
    simp [hlow, hw]
  · have hidx : w - 8 + (i - (w - 8)) = i := by omega
    have htop : i - (w - 8) < 8 ↔ i < w := by omega
    have hword : i - (w - 8) < 32 := by omega
    by_cases hw : i < w
    · simp [hi, hlow, hidx, htop, hword, hw]
    · have hb := BitVec.getLsbD_of_ge b (i - (w - 8)) (by omega)
      simp [hlow, htop, hw, hb]

end Rounds

/-- Settles O39: of what the byte is added to, the rounds shift the low bits; the table holds what they make of the
rest. -/
theorem tableDrivenCrcIsTheLoop : Obligations.TableDrivenCrcIsTheLoop := by
  intro w poly a b hwidth
  have hw : w ≤ 32 := by omega
  have h8 : 8 ≤ w := by omega
  calc crcTableAbsorb w poly a b
    _ = crcRounds w poly (a &&& mask (w - 8)) ^^^
          crcRounds w poly (((a >>> (w - 8)).setWidth 8 ^^^ b).setWidth 32 <<< (w - 8)) := by
      rw [crcRounds_low hw poly h8]
      rfl
    _ = crcRounds w poly ((a ^^^ b.setWidth 32 <<< (w - 8)) &&& mask w) := by
      rw [xor_byte_and_mask hw h8, crcRounds_xor hw]
    _ = crcAbsorb w poly false a b := crcRounds_and_mask hw poly (by omega) _

/-! ### Functions that lose nothing -/

/-- Each of the three steps of a checksum loses nothing of an accumulator or of the byte (R152). -/
structure AlgInjective (alg : Alg) : Prop where
  byte : ∀ {a x y}, AccFits alg a → algAbsorb alg a x = algAbsorb alg a y → x = y
  acc : ∀ {a a' b}, AccFits alg a → AccFits alg a' → algAbsorb alg a b = algAbsorb alg a' b → a = a'
  fin : ∀ {a a'}, AccFits alg a → AccFits alg a' → algFin alg a = algFin alg a' → a = a'

theorem AlgInjective.acc_of_absorbAll {alg : Alg} (h : AlgInjective alg) (hwf : algWf alg = true) {a a' : Nat}
    (ha : AccFits alg a) (ha' : AccFits alg a') {s : List Byte} (heq : absorbAll alg a s = absorbAll alg a' s) :
    a = a' := by
  induction s generalizing a a' with
  | nil => exact heq
  | cons b s ih => exact h.acc ha ha' (ih (accFits_algAbsorb hwf _ _) (accFits_algAbsorb hwf _ _) heq)

/-- A changed byte changes the accumulator, and nothing after it changes it back. -/
theorem AlgInjective.algDetectsByte {alg : Alg} (h : AlgInjective alg) (hwf : algWf alg = true) :
    AlgDetectsByte alg := by
  intro u v x y hxy heq
  have hu := accFits_absorbAll hwf (accFits_algInit hwf) u
  have hfits : ∀ z, AccFits alg (absorbAll alg (algInit alg) (u ++ z :: v)) := fun z =>
    accFits_absorbAll hwf (accFits_algInit hwf) _
  have hacc := h.fin (hfits x) (hfits y) heq
  rw [absorbAll_append, absorbAll_append] at hacc
  exact hxy (h.byte hu (h.acc_of_absorbAll hwf (accFits_algAbsorb hwf _ x) (accFits_algAbsorb hwf _ y) hacc))

/-! ### The additive family -/

theorem toNat_and_mask {w : Nat} (hw : w ≤ 32) (v : AlgWord) : (v &&& mask w).toNat = v.toNat % 2 ^ w := by
  have hm : 2 ^ w - 1 < 2 ^ 32 :=
    Nat.lt_of_lt_of_le (Nat.sub_lt (Nat.two_pow_pos w) one_pos) (Nat.pow_le_pow_right two_pos hw)
  rw [BitVec.toNat_and, mask, BitVec.toNat_ofNat, Nat.mod_eq_of_lt hm, Nat.and_two_pow_sub_one_eq_mod]

/-- `ALG.absorb` of a sum as R143 writes it. -/
theorem toNat_sumAbsorb {w : Nat} (hw : w ≤ 32) (a : AlgWord) (b : Byte) :
    (sumAbsorb w a b).toNat = (a.toNat + b.toNat) % 2 ^ w := by
  rw [sumAbsorb, toNat_and_mask hw, BitVec.toNat_add, Nat.mod_mod_of_dvd _ (Nat.pow_dvd_pow 2 hw),
    BitVec.toNat_setWidth_of_le (by omega)]

/-- Every finishing rule is injective on `W`-bit values (R143). -/
theorem sumFin_injOn {w : Nat} (hw : w ≤ 32) (f : SumFin) {a a' : AlgWord} (ha : a.toNat < 2 ^ w)
    (ha' : a'.toNat < 2 ^ w) (h : sumFin w f a = sumFin w f a') : a = a' := by
  cases f with
  | id => exact h
  | inv => exact (BitVec.xor_left_inj _).1 h
  | neg =>
    have hneg := congrArg BitVec.toNat h
    simp only [sumFin, toNat_and_mask hw, BitVec.zero_sub, BitVec.toNat_neg,
      Nat.mod_mod_of_dvd _ (Nat.pow_dvd_pow 2 hw)] at hneg
    have hsum : a'.toNat + 2 ^ 32 ≡ a.toNat + 2 ^ 32 [MOD 2 ^ w] := by
      have hadd := Nat.ModEq.add_right (a.toNat + a'.toNat) hneg
      have hl : 2 ^ 32 - a.toNat + (a.toNat + a'.toNat) = a'.toNat + 2 ^ 32 := by omega
      have hr : 2 ^ 32 - a'.toNat + (a.toNat + a'.toNat) = a.toNat + 2 ^ 32 := by omega
      rwa [hl, hr] at hadd
    exact BitVec.eq_of_toNat_eq ((Nat.ModEq.add_right_cancel' _ hsum).eq_of_lt_of_lt ha' ha).symm

/-- A byte fits every legal width (R140). -/
theorem eight_le_algW {alg : Alg} (h : algWf alg = true) : 8 ≤ algW alg := by
  obtain ⟨hw, -⟩ := (algWf_iff alg).1 h
  omega

theorem ofNat_lt_of_fits {w a : Nat} (hw : w ≤ 32) (ha : a < 2 ^ w) : (BitVec.ofNat 32 a).toNat < 2 ^ w := by
  rwa [toNat_ofNat_of_fits hw ha]

theorem ofNat_inj_of_fits {w a a' : Nat} (hw : w ≤ 32) (ha : a < 2 ^ w) (ha' : a' < 2 ^ w)
    (h : BitVec.ofNat 32 a = BitVec.ofNat 32 a') : a = a' := by
  rw [← toNat_ofNat_of_fits hw ha, h, toNat_ofNat_of_fits hw ha']

theorem algInjective_sum {w : Nat} {init : AlgWord} {f : SumFin} (h : algWf (.sum w init f) = true) :
    AlgInjective (.sum w init f) := by
  have hw : w ≤ 32 := algW_le h
  have hbyte : 2 ^ 8 ≤ 2 ^ w := Nat.pow_le_pow_right two_pos (eight_le_algW h)
  have habs : ∀ {a} b, a < 2 ^ w → algAbsorb (.sum w init f) a b = (a + b.toNat) % 2 ^ w := fun b ha => by
    rw [algAbsorb, toNat_sumAbsorb hw, toNat_ofNat_of_fits hw ha]
  refine ⟨fun {a x y} ha heq => ?_, fun {a a' b} ha ha' heq => ?_, fun {a a'} ha ha' heq => ?_⟩
  · rw [habs x ha, habs y ha] at heq
    have hxy : x.toNat ≡ y.toNat [MOD 2 ^ w] := Nat.ModEq.add_left_cancel' a heq
    exact BitVec.eq_of_toNat_eq (hxy.eq_of_lt_of_lt (x.isLt.trans_le hbyte) (y.isLt.trans_le hbyte))
  · rw [habs b ha, habs b ha'] at heq
    exact (Nat.ModEq.add_right_cancel' b.toNat heq).eq_of_lt_of_lt ha ha'
  · exact ofNat_inj_of_fits hw ha ha' (sumFin_injOn hw f (ofNat_lt_of_fits hw ha) (ofNat_lt_of_fits hw ha') heq)

/-- Settles O40: adding a byte modulo `2^W` and each finishing rule lose nothing. -/
theorem sumDetectsAnyChangedByte : Obligations.SumDetectsAnyChangedByte :=
  fun _ _ _ h => (algInjective_sum h).algDetectsByte h

/-! ### The CRC family -/

/-- With an odd polynomial bit 0 of a round's result is the bit that went out at the top, so the round can be undone
(R152). -/
theorem crcStep_injOn {w : Nat} (hw : w ≤ 32) {poly : AlgWord} (hodd : poly.getLsbD 0 = true) :
    Set.InjOn (crcStep w poly) {a | a.toNat < 2 ^ w} := by
  intro a ha b hb heq
  have hbits : ∀ i, (crcStep w poly a).getLsbD i = (crcStep w poly b).getLsbD i := fun i => by rw [heq]
  simp only [getLsbD_crcStep _ _ _ hw] at hbits
  have hzero : ∀ v : AlgWord, v.toNat < 2 ^ w → ∀ i, w ≤ i → v.getLsbD i = false := fun v hv =>
    (and_mask_eq_iff w hw v).1 ((and_mask_eq_iff_lt w hw v).2 hv)
  refine BitVec.eq_of_getLsbD_eq fun i hi => ?_
  by_cases hiw : i < w
  · have htop : a.getLsbD (w - 1) = b.getLsbD (w - 1) := by
      have hbit0 := hbits 0
      rw [hodd] at hbit0
      simpa [Nat.zero_lt_of_lt hiw] using hbit0
    by_cases hlast : i = w - 1
    · rw [hlast, htop]
    · have h1 : i + 1 < w := by omega
      have h2 : i + 1 < 32 := by omega
      simpa [h1, h2, htop] using hbits (i + 1)
  · rw [hzero a ha i (by omega), hzero b hb i (by omega)]

theorem crcRounds_injOn {w : Nat} (hw : w ≤ 32) {poly : AlgWord} (hodd : poly.getLsbD 0 = true) :
    Set.InjOn (crcRounds w poly) {a | a.toNat < 2 ^ w} :=
  (crcStep_injOn hw hodd).iterate (fun a _ => crcStep_lt hw poly a) 8

/-- Reflecting twice gives a value back (R142). -/
theorem reflect_reflect {n : Nat} (hn : n ≤ 32) {v : AlgWord} (hv : v.toNat < 2 ^ n) :
    reflect n (reflect n v) = v := by
  have hzero := (and_mask_eq_iff n hn v).1 ((and_mask_eq_iff_lt n hn v).2 hv)
  refine BitVec.eq_of_getLsbD_eq fun i _ => ?_
  rw [getLsbD_reflect n _ i hn, getLsbD_reflect n v _ hn]
  by_cases hi : i < n
  · have h1 : n - 1 - i < n := by omega
    have h2 : n - 1 - (n - 1 - i) = i := by omega
    simp [hi, h1, h2]
  · simp [hi, hzero i (by omega)]

/-- The byte as a CRC takes it, in a word (R142). -/
def crcByte (refin : Bool) (b : Byte) : AlgWord := if refin then reflect 8 (b.setWidth 32) else b.setWidth 32

theorem byteWord_lt (b : Byte) : (b.setWidth 32).toNat < 2 ^ 8 := by
  rw [BitVec.toNat_setWidth_of_le (by omega)]
  exact b.isLt

theorem crcByte_lt (refin : Bool) (b : Byte) : (crcByte refin b).toNat < 2 ^ 8 := by
  cases refin
  · exact byteWord_lt b
  · exact reflect_lt (by omega) _

theorem crcByte_injective (refin : Bool) : Function.Injective (crcByte refin) := by
  intro x y h
  have hword : x.setWidth 32 = y.setWidth 32 := by
    cases refin
    · exact h
    · have h' := congrArg (reflect 8) h
      simpa [crcByte, reflect_reflect (n := 8) (by omega) (byteWord_lt _)] using h'
  simpa using congrArg (BitVec.setWidth 8) hword

/-- What `ALG.absorb` of a CRC adds to the accumulator before its rounds: the byte at the top of the `W` bits (R142). -/
def crcAddend (w : Nat) (refin : Bool) (b : Byte) : AlgWord := crcByte refin b <<< (w - 8)

theorem crcAbsorb_eq (w : Nat) (poly : AlgWord) (refin : Bool) (a : AlgWord) (b : Byte) :
    crcAbsorb w poly refin a b = crcRounds w poly (a ^^^ crcAddend w refin b) := rfl

theorem crcByte_mul_lt {w : Nat} (h8 : 8 ≤ w) (refin : Bool) (b : Byte) :
    (crcByte refin b).toNat * 2 ^ (w - 8) < 2 ^ w :=
  calc (crcByte refin b).toNat * 2 ^ (w - 8)
    _ < 2 ^ 8 * 2 ^ (w - 8) := Nat.mul_lt_mul_of_pos_right (crcByte_lt refin b) (Nat.two_pow_pos _)
    _ = 2 ^ w := by rw [← pow_add, Nat.add_sub_cancel' h8]

theorem toNat_crcAddend {w : Nat} (h8 : 8 ≤ w) (hw : w ≤ 32) (refin : Bool) (b : Byte) :
    (crcAddend w refin b).toNat = (crcByte refin b).toNat * 2 ^ (w - 8) := by
  have hlt := (crcByte_mul_lt h8 refin b).trans_le (Nat.pow_le_pow_right two_pos hw)
  rw [crcAddend, BitVec.toNat_shiftLeft, Nat.shiftLeft_eq, Nat.mod_eq_of_lt hlt]

theorem crcAddend_lt {w : Nat} (h8 : 8 ≤ w) (hw : w ≤ 32) (refin : Bool) (b : Byte) :
    (crcAddend w refin b).toNat < 2 ^ w := by
  rw [toNat_crcAddend h8 hw]
  exact crcByte_mul_lt h8 refin b

theorem crcAddend_injective {w : Nat} (h8 : 8 ≤ w) (hw : w ≤ 32) (refin : Bool) :
    Function.Injective (crcAddend w refin) := by
  intro x y h
  have hmul := congrArg BitVec.toNat h
  rw [toNat_crcAddend h8 hw, toNat_crcAddend h8 hw] at hmul
  exact crcByte_injective refin (BitVec.eq_of_toNat_eq (Nat.eq_of_mul_eq_mul_right (Nat.two_pow_pos _) hmul))

/-- Absorbing loses nothing of the accumulator with the byte added. -/
theorem xor_crcAddend_eq_of_crcAbsorb_eq {w : Nat} (h8 : 8 ≤ w) (hw : w ≤ 32) {poly : AlgWord}
    (hodd : poly.getLsbD 0 = true) {refin : Bool} {a a' : AlgWord} {b b' : Byte} (ha : a.toNat < 2 ^ w)
    (ha' : a'.toNat < 2 ^ w) (h : crcAbsorb w poly refin a b = crcAbsorb w poly refin a' b') :
    a ^^^ crcAddend w refin b = a' ^^^ crcAddend w refin b' := by
  rw [crcAbsorb_eq, crcAbsorb_eq] at h
  have hfits := toNat_xor_lt ha (crcAddend_lt h8 hw refin b)
  have hfits' := toNat_xor_lt ha' (crcAddend_lt h8 hw refin b')
  exact crcRounds_injOn hw hodd hfits hfits' h

/-- A CRC finishes by a permutation of the bits, if `REFOUT` asks for it, and an addition of `XOROUT` (R142). -/
theorem crcFin_injOn {w : Nat} (hw : w ≤ 32) (refout : Bool) (xorout : AlgWord) {a a' : AlgWord}
    (ha : a.toNat < 2 ^ w) (ha' : a'.toNat < 2 ^ w) (h : crcFin w refout xorout a = crcFin w refout xorout a') :
    a = a' := by
  have hout := (BitVec.xor_left_inj _).1 h
  cases refout
  · exact hout
  · rw [← reflect_reflect hw ha, ← reflect_reflect hw ha']
    exact congrArg (reflect w) hout

theorem algInjective_crc {w : Nat} {poly init xorout : AlgWord} {refin refout : Bool}
    (h : algWf (.crc w poly init refin refout xorout) = true) (hodd : poly.getLsbD 0 = true) :
    AlgInjective (.crc w poly init refin refout xorout) := by
  have hw : w ≤ 32 := algW_le h
  have h8 : 8 ≤ w := eight_le_algW h
  have fits : ∀ {a}, a < 2 ^ w → (BitVec.ofNat 32 a).toNat < 2 ^ w := ofNat_lt_of_fits hw
  refine ⟨fun {a x y} ha heq => ?_, fun {a a' b} ha ha' heq => ?_, fun {a a'} ha ha' heq => ?_⟩
  · have hadd := xor_crcAddend_eq_of_crcAbsorb_eq h8 hw hodd (fits ha) (fits ha) (BitVec.eq_of_toNat_eq heq)
    exact crcAddend_injective h8 hw refin ((BitVec.xor_right_inj _).1 hadd)
  · have hadd := xor_crcAddend_eq_of_crcAbsorb_eq h8 hw hodd (fits ha) (fits ha') (BitVec.eq_of_toNat_eq heq)
    exact ofNat_inj_of_fits hw ha ha' ((BitVec.xor_left_inj _).1 hadd)
  · exact ofNat_inj_of_fits hw ha ha' (crcFin_injOn hw refout xorout (fits ha) (fits ha') heq)

/-- Settles O41: the rounds under an odd polynomial, the reflections and the addition of `XOROUT` lose nothing. -/
theorem oddCrcDetectsAnyChangedByte : Obligations.OddCrcDetectsAnyChangedByte :=
  fun _ _ _ _ _ _ h hodd => (algInjective_crc h hodd).algDetectsByte h

end Sys2Proof.Machine
end

section
/-! The generator port (spec 41_integrity.md R147 to R149). -/

namespace Sys2Proof.Machine

open Sys2Proof

/-- Settles O13: the row of operation code 5 has no operand. -/
theorem ginitRestartsTheGenerator : Obligations.GinitRestartsTheGenerator :=
  ⟨fun arg => (OpRow.ginit arg).decodeCommand, fun _ => rfl⟩

/-- Settles O14: the operand of operation code 6 is its argument. -/
theorem gbyteAbsorbsItsByte : Obligations.GbyteAbsorbsItsByte :=
  ⟨fun arg => (OpRow.gbyte arg).decodeCommand, fun _ _ => rfl⟩

/-- One operation other than RST and GINIT advances the generator over the byte it gives, if any. -/
theorem exec_gacc_generatedByte {i : Instr} {s t : State} (h : exec i s = .next t) (hr : i ≠ .rst)
    (hg : i ≠ .ginit) : t.gacc = absorbAll s.cfg.alg s.gacc (generatedByte i).toList := by
  by_cases hb : ∃ b, i = .gbyte b
  · obtain ⟨b, rfl⟩ := hb
    cases h
    rfl
  · have hnone : generatedByte i = none := by
      cases i with
      | gbyte b => exact absurd ⟨b, rfl⟩ hb
      | _ => rfl
    rw [exec_gacc h hg (fun b hi => hb ⟨b, hi⟩) hr, hnone]
    rfl

/-- A run without RST and GINIT advances the generator over the bytes of its GBYTEs. -/
theorem runsTo_gacc {is : List Instr} {s t : State} {rs : List Result} (h : RunsTo is s t rs)
    (his : ∀ i ∈ is, i ≠ .rst ∧ i ≠ .ginit) :
    t.gacc = absorbAll s.cfg.alg s.gacc (is.filterMap generatedByte) := by
  induction is generalizing s rs with
  | nil => rw [(runsTo_nil.1 h).1]; rfl
  | cons i is ih =>
    obtain ⟨u, rs', hx, hr, -⟩ := runsTo_cons.1 h
    obtain ⟨⟨hrst, hginit⟩, his⟩ := List.forall_mem_cons.1 his
    rw [ih hr his, exec_cfg hx, exec_gacc_generatedByte hx hrst hginit, ← absorbAll_append]
    cases hb : generatedByte i <;> simp [hb]

/-- Settles O55: GINIT leaves `ALG.init`, and the run advances the generator from there. -/
theorem generatorComputesTheChecksum : Obligations.GeneratorComputesTheChecksum := by
  intro is s t rs his h
  obtain ⟨u, rs', hx, hr, -⟩ := runsTo_cons.1 h
  have hcfg := runsTo_cfg h
  have hgacc := runsTo_gacc hr his
  cases hx
  rw [State.gck, hcfg, hgacc]
  rfl

end Sys2Proof.Machine
end

section
/-! Changed frames (spec 41_integrity.md R145, R151, R153): a valid frame with one byte changed is a string laid out as
a frame whose trailer is not its checksum. -/

namespace Sys2Proof.Machine

open Sys2Proof

/-! ### A frame whose trailer is wrong -/

/-- The last result of a run is that of its last operation. -/
theorem RunsTo.exists_last {is : List Instr} {s t : State} {rs : List Result} {r : Result}
    (h : RunsTo is s t (rs ++ [r])) : ∃ i u, exec i u = .next t ∧ t.out = r := by
  obtain rfl | ⟨js, i, rfl⟩ := List.eq_nil_or_concat' is
  · exact absurd (runsTo_nil.1 h).2 (by simp)
  obtain ⟨u, r1, r2, -, hlast, heq⟩ := runsTo_append.1 h
  obtain ⟨v, rs', hx, hnil, rfl⟩ := runsTo_cons.1 hlast
  obtain ⟨rfl, rfl⟩ := runsTo_nil.1 hnil
  obtain ⟨-, hr⟩ := List.append_inj' heq rfl
  exact ⟨i, u, hx, (List.singleton_inj.1 hr).symm⟩

/-- A run that ends with `EV_INTEGRITY_MISMATCH` leaves it in `res` (R28). -/
theorem RunsTo.res_of_mismatch {is : List Instr} {s t : State} {rs : List Result}
    (h : RunsTo is s t (rs ++ [⟨.integrityMismatch, none⟩])) : t.res = .integrityMismatch := by
  obtain ⟨i, u, hx, hout⟩ := h.exists_last
  obtain ⟨-, -, -, hres, -⟩ := stickyFlagsFollowTheirEvents i u t hx
  exact hres (by rw [hout])

/-- A string laid out as a frame, with a legal length and a trailer that is not the checksum, is rejected at its last
byte (R145). -/
theorem runsTo_frameOf_mismatch {s : State} {lb p tr : List Byte} (hc : cfgWf s.cfg = true) (hs : s.st = .hunt)
    (o : Byte) (hlb : lb.length = s.cfg.lenW) (hlen : asm s.cfg.bo lb = p.length) (hmax : p.length ≤ s.cfg.lenMax)
    (htr : tr.length = trlW s.cfg) (hsum : asm s.cfg.bo tr ≠ (checksum s.cfg.alg (covered s.cfg o lb p)).toNat) :
    ∃ t, RunsTo (pushs (frameOf s.cfg o lb p tr)) s t
        (List.replicate ((frameOf s.cfg o lb p tr).length - 1) ⟨.none, none⟩ ++ [⟨.integrityMismatch, none⟩]) ∧
      t.st = .hunt ∧ t.res = .integrityMismatch := by
  obtain ⟨t, hrun, ht⟩ := runsTo_frameOf hc hs o hlb hlen hmax htr
  rw [frameEvent_mismatch hsum] at hrun ht
  exact ⟨t, hrun, ht.st, hrun.res_of_mismatch⟩

/-! ### Changing one byte -/

theorem asm_inj (bo : ByteOrder) {s t : List Byte} (hlen : s.length = t.length) (h : asm bo s = asm bo t) : s = t := by
  rw [← ser_asm bo s, h, hlen, ser_asm]

/-! What `ALG_DETECTS_BYTE` (R151) says of the two parts of the covered span that may change. -/

section Detects
variable {c : Cfg} {o b : Byte} {lb p : List Byte}

theorem AlgDetectsByte.checksum_opcode_ne (h : AlgDetectsByte c.alg) (hb : b ≠ o) :
    checksum c.alg (covered c b lb p) ≠ checksum c.alg (covered c o lb p) :=
  h (if c.coverSof then [c.sof] else []) (lb ++ p) b o hb

theorem AlgDetectsByte.checksum_payload_ne (h : AlgDetectsByte c.alg) {j : Nat} (hj : j < p.length)
    (hb : p.set j b ≠ p) : checksum c.alg (covered c o lb (p.set j b)) ≠ checksum c.alg (covered c o lb p) := by
  have hne : b ≠ p[j] := by
    rintro rfl
    exact hb (List.set_getElem_self hj)
  have hsplit : ∀ x, covered c o lb (p.take j ++ x :: p.drop (j + 1)) =
      (covered c o lb [] ++ p.take j) ++ x :: p.drop (j + 1) := fun x => by simp [covered]
  have hold : p = p.take j ++ p[j] :: p.drop (j + 1) := by rw [List.getElem_cons_drop, List.take_append_drop]
  rw [List.set_eq_take_append_cons_drop, if_pos hj, hsplit]
  conv_rhs => rw [hold, hsplit]
  exact h _ _ b p[j] hne

end Detects

/-! Where a byte is set in a frame. -/

section Set
variable (c : Cfg) (o b : Byte) (lb p tr : List Byte)

theorem set_frameOf_opcode : (frameOf c o lb p tr).set 1 b = frameOf c b lb p tr := rfl

theorem set_frameOf_payload {j : Nat} (hj : j < p.length) :
    (frameOf c o lb p tr).set (2 + lb.length + j) b = frameOf c o lb (p.set j b) tr := by
  have hsplit : ∀ q, frameOf c o lb q tr = (c.sof :: o :: lb) ++ (q ++ tr) := fun q => by simp [frameOf]
  have hplace : 2 + lb.length + j = (c.sof :: o :: lb).length + j := by simp; omega
  rw [hsplit, hsplit, hplace, List.set_append_right _ _ (by omega), Nat.add_sub_cancel_left,
    List.set_append_left _ _ hj]

theorem set_frameOf_trailer (j : Nat) :
    (frameOf c o lb p tr).set (2 + lb.length + p.length + j) b = frameOf c o lb p (tr.set j b) := by
  have hsplit : ∀ q, frameOf c o lb p q = (c.sof :: o :: (lb ++ p)) ++ q := fun _ => rfl
  have hplace : 2 + lb.length + p.length + j = (c.sof :: o :: (lb ++ p)).length + j := by simp; omega
  rw [hsplit, hsplit, hplace, List.set_append_right _ _ (by omega), Nat.add_sub_cancel_left]

end Set

/-- Settles O54: the changed byte stands in the opcode, the payload or the trailer; the string is laid out as a frame
still, and its trailer is no longer its checksum. -/
theorem changedOpcodePayloadOrTrailerByteIsRejected : Obligations.ChangedOpcodePayloadOrTrailerByteIsRejected := by
  intro s f i b hc hs hf hi hb hplace
  have hset : f.set i b ≠ f := fun heq => hb (by rw [← heq, List.getElem?_set_self hi])
  rw [← List.length_set (i := i) (a := b)]
  obtain ⟨o, lb, p, tr, rfl, hlb, hlen, hmax, htr, hsum⟩ := exists_frameOf_of_frameWf hf
  rw [frameLen_frameOf hlb, hlen, ← hlb, ← htr, frameOf_length] at hplace
  rw [frameOf_length] at hi
  obtain ⟨hdetects, rfl | ⟨hge, hlt⟩⟩ | htrailer := hplace
  · rw [set_frameOf_opcode] at hset ⊢
    refine runsTo_frameOf_mismatch hc hs b hlb hlen hmax htr fun h => ?_
    have hne : b ≠ o := fun heq => hset (by rw [heq])
    exact hdetects.checksum_opcode_ne hne (BitVec.eq_of_toNat_eq (h.symm.trans hsum))
  · obtain ⟨j, rfl⟩ := Nat.exists_eq_add_of_le hge
    have hj : j < p.length := by omega
    rw [set_frameOf_payload _ _ _ _ _ _ hj] at hset ⊢
    refine runsTo_frameOf_mismatch hc hs o hlb (by rwa [List.length_set]) (by rwa [List.length_set]) htr fun h => ?_
    have hne : p.set j b ≠ p := fun heq => hset (by rw [heq])
    exact hdetects.checksum_payload_ne hj hne (BitVec.eq_of_toNat_eq (h.symm.trans hsum))
  · obtain ⟨j, rfl⟩ := Nat.exists_eq_add_of_le (show 2 + lb.length + p.length ≤ i by omega)
    rw [set_frameOf_trailer] at hset ⊢
    refine runsTo_frameOf_mismatch hc hs o hlb hlen hmax (by rwa [List.length_set]) fun h => ?_
    exact hset (by rw [asm_inj _ List.length_set (h.trans hsum.symm)])

end Sys2Proof.Machine
end

section
/-! The catalog (spec 42_catalog.md R174 to R176): what `lookup` finds, and `need` as the largest end of a field. -/

namespace Sys2Proof.Machine

open Sys2Proof

/-! ### The entry of an opcode -/

theorem lookup_eq_none_iff {cat : Catalog} {o : Byte} : lookup cat o = none ↔ ∀ e ∈ cat, e.opcode ≠ o := by
  simp only [lookup, List.findIdx?_eq_none_iff, beq_eq_false_iff_ne]

/-- Settles O43: what `lookup` finds has the opcode, and by R175 an entry is found by its opcode. -/
theorem lookupFindsTheOneEntry : Obligations.LookupFindsTheOneEntry := by
  intro fw nf cat o hcat
  refine ⟨fun k => ⟨lookup_some, ?_⟩, lookup_eq_none_iff⟩
  rintro ⟨e, hk, rfl⟩
  exact lookup_of_entry hcat hk

/-! ### The largest end of a field -/

theorem need_of_fields_nil {e : CatEntry} (h : e.fields = []) : need e = 0 := by rw [need, h, List.foldr_nil]

theorem lt_need_iff {e : CatEntry} {n : Nat} : n < need e ↔ ∃ d ∈ e.fields, n < d.offset + d.width := by
  unfold need
  induction e.fields with
  | nil => simp
  | cons d ds ih => rw [List.foldr_cons, lt_max_iff, ih, List.exists_mem_cons_iff]

/-- Where `need` is 0 every field ends there; where it is `n + 1`, the field that ends beyond `n` does. -/
theorem exists_end_eq_need {e : CatEntry} (h : e.fields ≠ []) : ∃ d ∈ e.fields, d.offset + d.width = need e := by
  cases hneed : need e with
  | zero =>
    obtain ⟨d, hd⟩ := List.exists_mem_of_ne_nil _ h
    exact ⟨d, hd, Nat.le_zero.1 (hneed ▸ le_need hd)⟩
  | succ n =>
    obtain ⟨d, hd, hlt⟩ := lt_need_iff.1 (show n < need e by omega)
    have hle := le_need hd
    exact ⟨d, hd, by omega⟩

/-- Settles O44. -/
theorem needIsTheLargestFieldEnd : Obligations.NeedIsTheLargestFieldEnd :=
  fun _ => ⟨fun _ => le_need, exists_end_eq_need, need_of_fields_nil, fun _ => lt_need_iff⟩

end Sys2Proof.Machine
end

section
/-! The extractor (spec 43_extractor.md R191 to R207): what each transform makes of its bytes, and what XDEC reads of
the held payload. -/

namespace Sys2Proof.Machine

open Sys2Proof

/-! ### The transforms -/

theorem sext_of_lt {n v : Nat} (h : v < 2 ^ (n - 1)) : sext n v = v := if_pos h

theorem sext_of_le {n v : Nat} (h : 2 ^ (n - 1) ≤ v) : sext n v = (v : Int) - 2 ^ n := if_neg (Nat.not_lt.2 h)

theorem mem_setBits {n v i : Nat} : i ∈ setBits n v ↔ i < n ∧ v.testBit i = true := by
  rw [setBits, List.mem_filter, List.mem_range]

theorem setBits_ascending (n v : Nat) : (setBits n v).Pairwise (· < ·) := List.pairwise_lt_range.filter _

/-- Every transform but `ASCII` gives the assembled integer as `raw` (R200). -/
theorem fieldRaw_of_ne_ascii {t : Transform} (h : t ≠ .ascii) (bo : ByteOrder) (bs : List Byte) :
    fieldRaw bo t bs = some (asm bo bs) := by
  cases t with
  | rawInt | signedInt | fixed | bitmask => rfl
  | ascii => exact absurd rfl h

/-- Settles O12: each record is its transform's row of the table; the sign boundary and the flags are `sext`'s and
`setBits`' lemmas. -/
theorem transformsGiveTheirRecords : Obligations.TransformsGiveTheirRecords := by
  intro bo name offset bs _
  refine ⟨rfl, ⟨_, rfl, sext_of_lt, sext_of_le⟩, fun _ => rfl, fun labels => ?_, rfl⟩
  exact ⟨_, rfl, setBits_ascending _ _, fun _ => mem_setBits⟩

/-! ### XDEC writes its result only -/

/-- Settles O35: XDEC changes nothing but its result, and what it reads (`execXdec_congr`) is neither the result nor
the opcode. -/
theorem xdecIsPureAndRepeatable : Obligations.XdecIsPureAndRepeatable := by
  intro k s t h
  obtain ⟨r, rfl⟩ : ∃ r, t = { s with out := r } := ⟨t.out, execXdec_eq h⟩
  exact ⟨rfl, execXdec_congr h rfl rfl rfl rfl, fun _ => execXdec_congr h rfl rfl rfl rfl,
    fun _ => execXdec_congr h rfl rfl rfl rfl⟩

/-! ### XDEC of a schema that the held payload satisfies -/

section Satisfied
variable {s s' : State} {e : CatEntry}

/-- The records are all that is left to find once the range check has passed (R191, R193). -/
theorem execXdec_of_need_le {k : Byte} {t : State} (hs : s.st = .hold) (hk : s.cfg.cat[k.toNat]? = some e)
    (hneed : need e ≤ s.len.toNat) :
    execXdec k s = .next t ↔ ∃ recs, fieldRecords s e.fields = .ok recs ∧ t = deliver recs s := by
  simp [execXdec_next, extract_next, hs, hk, hneed, Nat.not_lt.2 hneed]

/-- Held frames that both hold a span, with the same bytes, give the same answer to its read, a width of 0 too. -/
theorem memRead_congr_of_held {a n : Nat} (hs : s.st = .hold) (hs' : s'.st = .hold) (hfit : a + n ≤ s.len.toNat)
    (hfit' : a + n ≤ s'.len.toNat)
    (hread : ∀ i, i < n → Memory.read s'.pbuf (a + i) = Memory.read s.pbuf (a + i)) :
    memRead s' a n = memRead s a n := by
  by_cases hn : 1 ≤ n
  · rw [memRead_of_held ⟨hn, hfit, hs⟩, memRead_of_held ⟨hn, hfit', hs'⟩, Memory.readSpan_congr hread]
  · rw [memRead_of_not_held fun h => hn h.1, memRead_of_not_held fun h => hn h.1]

/-- Of the buffer the records depend on the reads of their own fields only (R194). -/
theorem fieldRecords_congr_of_memRead {ds : List FieldDesc} (hcfg : s'.cfg = s.cfg)
    (h : ∀ d ∈ ds, memRead s' d.offset d.width = memRead s d.offset d.width) :
    fieldRecords s' ds = fieldRecords s ds := by
  induction ds with
  | nil => rfl
  | cons d ds ih =>
    obtain ⟨hd, hds⟩ := List.forall_mem_cons.1 h
    have hrec : fieldRecord s' d = fieldRecord s d := by rw [fieldRecord, fieldRecord, hd, hcfg]
    rw [fieldRecords, fieldRecords, hrec, ih hds]

end Satisfied

/-- Settles O58: every field ends within `need`, so both frames answer its read, with the same bytes. -/
theorem bytesBeyondNeedAreIgnored : Obligations.BytesBeyondNeedAreIgnored := by
  intro s s' t k e hs hs' hcfg hk hneed hneed' hread h
  obtain ⟨recs, hrecs, rfl⟩ := (execXdec_of_need_le hs hk hneed).1 h
  have hsame : fieldRecords s' e.fields = fieldRecords s e.fields :=
    fieldRecords_congr_of_memRead hcfg fun d hd =>
      memRead_congr_of_held hs hs' ((le_need hd).trans hneed) ((le_need hd).trans hneed') (hread d hd)
  exact ⟨rfl, (execXdec_of_need_le hs' (by rw [hcfg, hk]) hneed').2 ⟨recs, hsame.trans hrecs, rfl⟩⟩

/-! ### The fields of a payload -/

/-- In a well-formed catalog no field is empty (R177): the reset state satisfies the invariant, which says so. -/
theorem one_le_width_of_cfgWf {c : Cfg} (hc : cfgWf c = true) {e : CatEntry} (he : e ∈ c.cat) {d : FieldDesc}
    (hd : d ∈ e.fields) : 1 ≤ d.width :=
  (inv_resetWith hc).one_le_width he hd

section Payload
variable {s : State} {p : List Byte}

theorem len_of_payload (hp : s.payload = p.map some) : s.len.toNat = p.length := by
  simpa [State.payload] using congrArg List.length hp

/-- Where the payload output has a value it is that of the buffer cell (R34). -/
theorem read_of_payload (hs : s.st = .hold) (hp : s.payload = p.map some) {i : Nat} (hi : i < p.length) :
    Memory.read s.pbuf i = p[i]? := by
  have hcell : s.payload[i]? = (p.map some)[i]? := by rw [hp]
  simpa [State.payload, State.pay, len_of_payload hp, hs, hi] using hcell

/-- A read inside the held payload gives that part of it (R52). -/
theorem memRead_of_payload (hs : s.st = .hold) (hp : s.payload = p.map some) {a n : Nat} (hn : 1 ≤ n)
    (hfit : a + n ≤ p.length) : memRead s a n = .ok ((p.drop a).take n) := by
  refine memRead_ok.2 ⟨⟨hn, (len_of_payload hp).symm ▸ hfit, hs⟩, ?_, fun i hi => ?_⟩
  · rw [List.length_take, List.length_drop]
    omega
  · rw [read_of_payload hs hp (by omega), List.getElem?_take_of_lt hi, List.getElem?_drop]

/-- The records of fields inside the held payload, one for each descriptor (R194, R200). -/
theorem fieldRecords_of_payload (hs : s.st = .hold) (hp : s.payload = p.map some) {ds : List FieldDesc}
    (hds : ∀ d ∈ ds, 1 ≤ d.width ∧ d.offset + d.width ≤ p.length) :
    fieldRecords s ds = .ok (ds.map fun d => recordOf s.cfg.bo d ((p.drop d.offset).take d.width)) := by
  refine fieldRecords_ok.2 (List.forall₂_map_right_iff.2 (List.forall₂_same.2 fun d hd => ?_))
  obtain ⟨hw, hfit⟩ := hds d hd
  exact fieldRecord_ok.2 ⟨_, memRead_of_payload hs hp hw hfit, rfl⟩

end Payload

/-- Settles O51: the encoded frame is held with its payload (O50), whose fields are inside it by `need`; `asm` undoes
the `ser` that a field was built by. -/
theorem fieldRoundTrip : Obligations.FieldRoundTrip := by
  intro s k e p hc hs hk hneed hmax
  refine ⟨?_, fun d v _ htr hv hser => ?_⟩
  · obtain ⟨t, rs, hrun, hst, -, -, -, hpay⟩ := encodedFrameRoundTrip s k.toNat e p hc hs hk hmax
    have hcfg : t.cfg = s.cfg := runsTo_cfg hrun
    have hrecs := fieldRecords_of_payload hst hpay (ds := e.fields) fun d hd =>
      ⟨one_le_width_of_cfgWf hc (List.mem_of_getElem? hk) hd, (le_need hd).trans hneed⟩
    rw [hcfg] at hrecs
    have hx := (execXdec_of_need_le hst (hcfg ▸ hk) (by rwa [len_of_payload hpay])).2 ⟨_, hrecs, rfl⟩
    exact ⟨_, rs, runsTo_append.2 ⟨t, rs, _, hrun, runsTo_cons.2 ⟨_, [], hx, runsTo_nil.2 ⟨rfl, rfl⟩, rfl⟩, rfl⟩⟩
  · rw [recordOf, fieldRaw_of_ne_ascii htr, hser, asm_ser _ hv]

end Sys2Proof.Machine
end

section
/-! Events (spec 60_exceptions.md R221, R226 to R230, R239): where XDEC is turned away and what it delivers, which
operation raises which event, and that under the invariant every operation goes on. -/

namespace Sys2Proof.Machine

open Sys2Proof

/-! ### XDEC turned away -/

/-- Settles O10: each clause is a case of XDEC (`execXdec_next`, `extract_next`), whose event changes the result
only. -/
theorem xdecTurnedAwayInOrder : Obligations.XdecTurnedAwayInOrder := by
  refine fun s k => ⟨fun hs => ?_, fun hs hk => ?_, fun e hs hk hlt => ?_⟩
  · exact execXdec_next.2 (.inl ⟨hs, rfl⟩)
  · exact execXdec_next.2 (.inr (.inl ⟨hs, List.getElem?_eq_none hk, rfl⟩))
  · exact execXdec_next.2 (.inr (.inr ⟨e, hs, hk, extract_next.2 (.inl ⟨hlt, rfl⟩)⟩))

/-! ### The records of a held payload -/

section Records
variable {s : State} {ds : List FieldDesc} {recs : List FieldRecord} {e : CatEntry}

/-- A record is made of exactly the written bytes of its field (R194, R200). -/
theorem fieldRecord_bytes {d : FieldDesc} {r : FieldRecord} (h : fieldRecord s d = .ok r) :
    r = recordOf s.cfg.bo d r.bytes ∧ r.bytes.length = d.width ∧
      ∀ i, i < d.width → r.bytes[i]? = Memory.read s.pbuf (d.offset + i) := by
  obtain ⟨bs, hbs, rfl⟩ := fieldRecord_ok.1 h
  obtain ⟨-, hlen, hread⟩ := memRead_ok.1 hbs
  exact ⟨rfl, hlen, fun i hi => (hread i hi).symm⟩

theorem fieldRecords_length (h : fieldRecords s ds = .ok recs) : recs.length = ds.length :=
  (fieldRecords_ok.1 h).length_eq.symm

theorem fieldRecords_getElem? (h : fieldRecords s ds = .ok recs) {j : Nat} {d : FieldDesc} (hd : ds[j]? = some d) :
    ∃ r, recs[j]? = some r ∧ fieldRecord s d = .ok r := by
  obtain ⟨hj, rfl⟩ := List.getElem?_eq_some_iff.1 hd
  have hj' : j < recs.length := (fieldRecords_length h).symm ▸ hj
  exact ⟨recs[j], List.getElem?_eq_getElem hj', (fieldRecords_ok.1 h).get hj hj'⟩

theorem fieldRecords_exists_of_forall (h : ∀ d ∈ ds, ∃ r, fieldRecord s d = .ok r) :
    ∃ recs, fieldRecords s ds = .ok recs := by
  induction ds with
  | nil => exact ⟨[], rfl⟩
  | cons d ds ih =>
    obtain ⟨⟨r, hr⟩, hds⟩ := List.forall_mem_cons.1 h
    obtain ⟨recs, hrecs⟩ := ih hds
    exact ⟨r :: recs, fieldRecords_ok.2 (.cons hr (fieldRecords_ok.1 hrecs))⟩

/-- A held, written payload that reaches `need` has a record for every descriptor: each field ends within `need`. -/
theorem fieldRecords_exists_of_need_le (hs : s.st = .hold) (hneed : need e ≤ s.len.toNat)
    (hwidth : ∀ d ∈ e.fields, 1 ≤ d.width)
    (hwritten : ∀ i, i < s.len.toNat → (Memory.read s.pbuf i).isSome = true) :
    ∃ recs, fieldRecords s e.fields = .ok recs := by
  refine fieldRecords_exists_of_forall fun d hd => ?_
  have hfit : d.offset + d.width ≤ s.len.toNat := (le_need hd).trans hneed
  exact fieldRecord_exists hs hfit (hwidth d hd) fun i hi => hwritten _ (by omega)

end Records

/-- Settles O11: the records exist by `fieldRecords_exists_of_need_le`, and each is the one of its descriptor. -/
theorem xdecDeliversEveryField : Obligations.XdecDeliversEveryField := by
  intro s k e hs hk hneed hwidth hwritten
  obtain ⟨recs, hrecs⟩ := fieldRecords_exists_of_need_le hs hneed hwidth hwritten
  refine ⟨recs, (execXdec_of_need_le hs hk hneed).2 ⟨recs, hrecs, rfl⟩, fieldRecords_length hrecs, fun j d hd => ?_⟩
  obtain ⟨r, hr, hrec⟩ := fieldRecords_getElem? hrecs hd
  exact ⟨r, hr, fieldRecord_bytes hrec⟩

/-! ### Which operation raises which event -/

theorem isReserved_of_pushedByte {i : Instr} {b : Byte} (hb : pushedByte i = some b) : isReserved i = false := by
  cases i <;> cases hb <;> rfl

/-- Settles O33: the events of a pushed byte and of XDEC are those of `pushByte_frame` and `execXdec_frame`, a
reserved code raises its own, and the other operations raise none. -/
theorem eventsComeFromTheirOperations : Obligations.EventsComeFromTheirOperations := by
  refine ⟨rfl, fun i s t h => ?_⟩
  cases exec_next.1 h with
  | push hb h =>
    obtain ⟨-, -, -, hxout, hev, -⟩ := pushByte_frame h
    have hpush := isPush_of_pushedByte hb
    have hres := isReserved_of_pushedByte hb
    rcases hev with h | h | h | h | h | h <;> simp [h, hxout, hpush, hres]
  | xdec h =>
    obtain ⟨-, hev⟩ := execXdec_frame h
    rcases hev with h | ⟨hs, hev⟩
    · simp [h, isReserved]
    · rcases hev with h | h | h <;> simp [h, hs, isReserved]
  | reserved hi => simp [hi]
  | nop | rst | flush | ginit | gbyte => simp [isReserved]

/-! ### Every operation goes on -/

section Total
variable {s : State}

/-- Only in `PAY` can a pushed byte stop, and there the invariant has room for it. -/
theorem pushByte_total (hi : Inv s) (b : Byte) : ∃ t, pushByte b s = .next t := by
  cases hs : s.st with
  | hunt | opc | len | trl | hold => simp [pushByte, hs]
  | pay => exact ⟨_, (pushByte_of_pay hs).trans (pushPay_next.2 ⟨hi.cnt_lt_lenMax hs, rfl⟩)⟩

/-- Only reading a field can stop XDEC, and under the invariant the held payload is written. -/
theorem execXdec_total (hi : Inv s) (k : Byte) : ∃ t, execXdec k s = .next t := by
  obtain ⟨hnotHeld, hbadSel, hshort⟩ := xdecTurnedAwayInOrder s k
  by_cases hs : s.st = .hold
  · cases hk : s.cfg.cat[k.toNat]? with
    | none => exact ⟨_, hbadSel hs (List.getElem?_eq_none_iff.1 hk)⟩
    | some e =>
      rcases Nat.lt_or_ge s.len.toNat (need e) with hlt | hneed
      · exact ⟨_, hshort e hs hk hlt⟩
      · have hwidth : ∀ d ∈ e.fields, 1 ≤ d.width := fun d => hi.one_le_width (List.mem_of_getElem? hk)
        have hwritten : ∀ i, i < s.len.toNat → (Memory.read s.pbuf i).isSome = true := fun i hlt =>
          hi.written (by rwa [payTaken_hold hs])
        obtain ⟨recs, hrecs⟩ := fieldRecords_exists_of_need_le hs hneed hwidth hwritten
        exact ⟨_, (execXdec_of_need_le hs hk hneed).2 ⟨recs, hrecs, rfl⟩⟩
  · exact ⟨_, hnotHeld hs⟩

theorem exec_total (hi : Inv s) (i : Instr) : ∃ t, exec i s = .next t := by
  cases i with
  | push | wireQueryStatus | wireTestInts | wireTestFlags | wireTestEmpty => exact pushByte_total hi _
  | xdec k => exact execXdec_total hi k
  | nop | rst | flush | ginit | gbyte | reserved7 | reserved8 | reserved9 | reservedA | reservedB | reservedC
  | reservedD | reservedE | reservedF => exact ⟨_, rfl⟩

/-- Taking an input off the port leaves the invariant, so the operation it decodes to goes on. -/
theorem step_total (hi : Inv s) : Completes s := by
  cases hp : s.port with
  | nil => exact ⟨s, step_next.2 ⟨hi.config, .inl ⟨hp, rfl⟩⟩⟩
  | cons w rest =>
    cases hd : decodeInput w with
    | none => exact ⟨_, step_next.2 ⟨hi.config, .inr ⟨w, rest, hp, .inl ⟨hd, rfl⟩⟩⟩⟩
    | some i =>
      have htaken : Inv { s with port := rest } := hi.of_frame_eq rfl hi.gaccFits hi.outForm
      obtain ⟨t, ht⟩ := exec_total htaken i
      exact ⟨t, step_next.2 ⟨hi.config, .inr ⟨w, rest, hp, .inr ⟨i, hd, ht⟩⟩⟩⟩

end Total

/-- Settles O47. -/
theorem everyOperationIsTotal : Obligations.EveryOperationIsTotal := fun _ hi => ⟨exec_total hi, step_total hi⟩

end Sys2Proof.Machine
end

section
/-! Reset (spec 70_reset_and_hazards.md R260 to R263; 10_state.md R41): the reset state, the hardware reset input, and
why FLUSH and RST cannot be told apart on the receive path. -/

namespace Sys2Proof.Machine

open Sys2Proof

/-! ### The reset state and the hardware reset -/

/-- Settles O26: outside `HOLD` no frame output has a value, and `STATUS` is that of any hunting state. -/
theorem resetStateAsTabulated : Obligations.ResetStateAsTabulated := by
  refine ⟨fun c => ?_, by decide, by decide⟩
  have hstatus : (State.resetWith c).status = 0x0200 := status_of_hunt rfl rfl rfl
  simp [hstatus, State.gck, State.fOpc, State.fLen, State.fIdx, State.pay]

/-- Settles O24: the hardware reset input is the one input that is no instruction. -/
theorem hardwareResetGivesTheResetState : Obligations.HardwareResetGivesTheResetState :=
  fun _ _ hc hp => step_of_take_reset (take_of_decodeInput_none hc hp rfl)

/-! ### States that the receive path cannot tell apart -/

/-- The state with another `trl` and `gacc`. -/
def State.withTrailer (s : State) (r : AlgWord) (g : Nat) : State := { s with trl := r, gacc := g }

/-- The state with another `opc` and `len` besides. -/
def State.withHeader (s : State) (o : Byte) (l : BitVec 16) (r : AlgWord) (g : Nat) : State :=
  { s with opc := o, len := l, trl := r, gacc := g }

/-- The states that differ at most in registers whose values the receive path does not read again: `opc` and `len`
until the opcode byte sets both (R106), `trl` until it is cleared for the trailer (R107, R108) and again once the frame
is held, `gacc` always (R64). -/
inductive SameReceive (s : State) : State → Prop where
  | header (o : Byte) (l : BitVec 16) (r : AlgWord) (g : Nat) (hs : s.st = .hunt ∨ s.st = .opc) :
      SameReceive s (s.withHeader o l r g)
  | trailer (r : AlgWord) (g : Nat) (hs : s.st = .len ∨ s.st = .pay ∨ s.st = .hold) :
      SameReceive s (s.withTrailer r g)
  | generator (g : Nat) : SameReceive s (s.withGacc g)

section Same
variable {s s' t : State} {b : Byte}

/-- What the states have in common at every point of a frame. -/
theorem SameReceive.common (h : SameReceive s s') :
    s'.cfg = s.cfg ∧ s'.st = s.st ∧ s'.res = s.res ∧ s'.ovr = s.ovr ∧ s'.pbuf = s.pbuf ∧ s'.out = s.out := by
  cases h with
  | header | trailer | generator => exact ⟨rfl, rfl, rfl, rfl, rfl, rfl⟩

theorem SameReceive.of_hold (h : SameReceive s s') (hs : s.st = .hold) : s'.opc = s.opc ∧ s'.len = s.len := by
  cases h with
  | header _ _ _ _ hpos => simp [hs] at hpos
  | trailer | generator => exact ⟨rfl, rfl⟩

/-- The result belongs to what the states have in common. -/
theorem SameReceive.with_out (h : SameReceive s s') (x : Result) :
    SameReceive { s with out := x } { s' with out := x } := by
  cases h with
  | header o l r g hs => exact .header o l r g hs
  | trailer r g hs => exact .trailer r g hs
  | generator g => exact .generator g

/-! ### Each operation of the receive path -/

theorem pushHunt_sameReceive (o : Byte) (l : BitVec 16) (r : AlgWord) (g : Nat) (hs : s.st = .hunt) :
    SameReceive (pushHunt b s) (pushHunt b (s.withHeader o l r g)) := by
  by_cases hb : b = s.cfg.sof
  · rw [pushHunt_marker hb, pushHunt_marker (s := s.withHeader o l r g) hb]
    exact .header o l r g (.inr rfl)
  · rw [pushHunt_other hb, pushHunt_other (s := s.withHeader o l r g) hb]
    exact .header o l r g (.inl hs)

/-- The opcode byte overwrites `opc` and clears `len`, so from here on only `trl` and `gacc` can differ. -/
theorem pushOpc_sameReceive (o : Byte) (l : BitVec 16) (r : AlgWord) (g : Nat) :
    SameReceive (pushOpc b s) (pushOpc b (s.withHeader o l r g)) :=
  .trailer r g (.inl rfl)

/-- Where the length field leads straight to the trailer, `trl` is cleared; a length out of range gives the frame
up, and the header is unread again. -/
theorem pushLen_sameReceive (r : AlgWord) (g : Nat) (hs : s.st = .len) :
    SameReceive (pushLen b s) (pushLen b (s.withTrailer r g)) := by
  by_cases hmore : s.cnt.toNat + 1 < s.cfg.lenW
  · rw [pushLen_more hmore, pushLen_more (s := s.withTrailer r g) hmore]
    exact .trailer r g (.inl hs)
  by_cases hmax : s.cfg.lenMax < (lenShifted s b).toNat
  · rw [pushLen_tooLong hmore hmax, pushLen_tooLong (s := s.withTrailer r g) hmore hmax]
    exact .header _ _ r g (.inl rfl)
  by_cases hzero : lenShifted s b = 0
  · rw [pushLen_empty hmore hmax hzero, pushLen_empty (s := s.withTrailer r g) hmore hmax hzero]
    exact .generator g
  · rw [pushLen_payload hmore hmax hzero, pushLen_payload (s := s.withTrailer r g) hmore hmax hzero]
    exact .trailer r g (.inr (.inl rfl))

/-- The last payload byte clears `trl` for the trailer. -/
theorem pushPayRegs_sameReceive (r : AlgWord) (g : Nat) (hs : s.st = .pay) :
    SameReceive (pushPayRegs b s) (pushPayRegs b (s.withTrailer r g)) := by
  by_cases hlast : s.cnt.toNat + 1 = s.len.toNat
  · rw [pushPayRegs_last hlast, pushPayRegs_last (s := s.withTrailer r g) hlast]
    exact .generator g
  · rw [pushPayRegs_more hlast, pushPayRegs_more (s := s.withTrailer r g) hlast]
    exact .trailer r g (.inr (.inl hs))

theorem pushPay_sameReceive (r : AlgWord) (g : Nat) (hs : s.st = .pay) (h : pushPay b s = .next t) :
    ∃ t', pushPay b (s.withTrailer r g) = .next t' ∧ SameReceive t t' := by
  obtain ⟨hlt, rfl⟩ := pushPay_next.1 h
  exact ⟨_, pushPay_next.2 ⟨hlt, rfl⟩, pushPayRegs_sameReceive r g hs⟩

/-- A pushed byte reads none of the registers that differ: by where the states are in the frame. -/
theorem execPush_sameReceive (h : exec (.push b) s = .next t) (hsame : SameReceive s s') :
    ∃ t', exec (.push b) s' = .next t' ∧ SameReceive t t' := by
  cases hsame with
  | header o l r g hs =>
    rcases hs with hs | hs
    · cases (execPush_of_hunt b hs).symm.trans h
      exact ⟨_, execPush_of_hunt b hs, pushHunt_sameReceive o l r g hs⟩
    · cases (execPush_of_opc b hs).symm.trans h
      exact ⟨_, execPush_of_opc b hs, pushOpc_sameReceive o l r g⟩
  | trailer r g hs =>
    rcases hs with hs | hs | hs
    · cases (execPush_of_len b hs).symm.trans h
      exact ⟨_, execPush_of_len b hs, pushLen_sameReceive r g hs⟩
    · obtain ⟨t', ht', hsame⟩ := pushPay_sameReceive r g hs ((pushByte_of_pay hs).symm.trans h)
      exact ⟨t', (pushByte_of_pay (s := s.withTrailer r g) hs).trans ht', hsame⟩
    · cases (execPush_of_hold b hs).symm.trans h
      exact ⟨_, execPush_of_hold b hs, .trailer r g (.inr (.inr hs))⟩
  | generator g => exact ⟨_, pushByte_withGacc s g b h, .generator g⟩

/-- XDEC is turned away alike where no frame is held, and reads no register that differs where one is. -/
theorem execXdec_sameReceive {k : Byte} (h : exec (.xdec k) s = .next t) (hsame : SameReceive s s') :
    ∃ t', exec (.xdec k) s' = .next t' ∧ SameReceive t t' := by
  obtain ⟨hcfg, hst, -, -, hpbuf, -⟩ := hsame.common
  have ht := execXdec_eq h
  refine ⟨{ s' with out := t.out }, ?_, by rw [ht]; exact hsame.with_out t.out⟩
  by_cases hs : s.st = .hold
  · exact execXdec_congr h hcfg hst (hsame.of_hold hs).2 hpbuf
  · cases ((xdecTurnedAwayInOrder s k).1 hs).symm.trans h
    exact (xdecTurnedAwayInOrder s' k).1 (by rwa [hst])

theorem execFlush_sameReceive (h : exec .flush s = .next t) (hsame : SameReceive s s') :
    ∃ t', exec .flush s' = .next t' ∧ SameReceive t t' := by
  cases h
  refine ⟨_, rfl, ?_⟩
  cases hsame with
  | header o l r g => exact .header o l r g (.inl rfl)
  | trailer r g => exact .header _ _ r g (.inl rfl)
  | generator g => exact .generator g

theorem exec_sameReceive {i : Instr} (hi : isReceive i = true) (h : exec i s = .next t) (hsame : SameReceive s s') :
    ∃ t', exec i s' = .next t' ∧ SameReceive t t' := by
  cases i with
  | push b => exact execPush_sameReceive h hsame
  | xdec k => exact execXdec_sameReceive h hsame
  | flush => exact execFlush_sameReceive h hsame
  | _ => cases hi

theorem runsTo_sameReceive {is : List Instr} {rs : List Result} (his : ∀ i ∈ is, isReceive i = true)
    (h : RunsTo is s t rs) (hsame : SameReceive s s') : ∃ t', RunsTo is s' t' rs ∧ SameReceive t t' := by
  induction is generalizing s s' rs with
  | nil =>
    obtain ⟨rfl, rfl⟩ := runsTo_nil.1 h
    exact ⟨s', by simp, hsame⟩
  | cons i is ih =>
    obtain ⟨hi, his⟩ := List.forall_mem_cons.1 his
    obtain ⟨u, rs', hx, hr, rfl⟩ := runsTo_cons.1 h
    obtain ⟨u', hx', hu⟩ := exec_sameReceive hi hx hsame
    obtain ⟨t', hr', ht⟩ := ih his hr hu
    obtain ⟨-, -, -, -, -, hout⟩ := hu.common
    exact ⟨t', runsTo_cons.2 ⟨u', rs', hx', hr', by rw [hout]⟩, ht⟩

/-! ### What a host observes -/

theorem SameReceive.status_eq (h : SameReceive s s') : s'.status = s.status := by
  obtain ⟨-, hst, hres, hovr, -⟩ := h.common
  simp only [State.status, State.hunting, State.held, State.incomplete, hst, hres, hovr]

/-- The frame outputs read `opc` and `len` in `HOLD` only, where they agree (R34). -/
theorem SameReceive.observe_eq (h : SameReceive s s') : observe s = observe s' := by
  obtain ⟨hcfg, hst, -, -, hpbuf, hout⟩ := h.common
  by_cases hs : s.st = .hold
  · obtain ⟨hopc, hlen⟩ := h.of_hold hs
    have hpay : s'.pay = s.pay := funext fun i => by simp only [State.pay, hst, hlen, hpbuf]
    simp only [observe, State.payload, State.fOpc, State.fLen, State.fIdx, h.status_eq, hcfg, hst, hout, hopc, hlen,
      hpay]
  · rw [observe_of_not_hold hs, observe_of_not_hold (by rwa [hst])]
    simp [State.fOpc, State.fLen, State.fIdx, h.status_eq, hst, hout, hs]

end Same

/-- Settles O56: FLUSH and RST leave states that differ in `opc`, `len`, `trl` and `gacc`, all unread while hunting,
and no operation of the receive path makes the difference seen. -/
theorem flushAndRstLookAlike : Obligations.FlushAndRstLookAlike := by
  intro is s f r his hf hr
  cases hf
  cases hr
  have hsame : SameReceive (raise .none (flushFrame s)) (raise .none (resetRegisters s)) :=
    .header 0 0 0 (algInit s.cfg.alg) (.inl rfl)
  refine ⟨by simp, ⟨status_of_hunt rfl rfl rfl, ?_⟩, hsame.observe_eq, fun t rs hrun => ?_⟩
  · simp [State.fOpc, State.fLen, State.fIdx, State.pay]
  · obtain ⟨u, hu, htu⟩ := runsTo_sameReceive his hrun hsame
    exact ⟨u, hu, htu.observe_eq⟩

end Sys2Proof.Machine
end
